-- ==== Sys2Proof/Word.lean ====
section
/-!
DEFINITION. The word type of the packet engine (00_scope.md R7): a byte is 8 bits, bit 0 the least significant.
-/

namespace Sys2Proof

/-- A byte is 8 bits everywhere (20_memory.md R40). -/
abbrev Byte := BitVec 8

end Sys2Proof
end

