-- ==== Sys2Proof/Config.lean ====
section
/-!
DEFINITION. The record of parameters of 00_scope.md R5 (decision D17): every definition that depends on one takes the
record as an argument, and no other file of the model writes one of these values as a bare literal. `Config.device` is
this hardware.
-/

namespace Sys2Proof

/-- The named parameters of 00_scope.md R5, in the order of its table. -/
structure Config where
  /-- Selector byte that opens a "send variable" packet. -/
  selSendVariable : Byte
  tagUint16 : Byte
  tagInt16 : Byte
  tagInt8 : Byte
  tagInt32 : Byte
  tagFloat32 : Byte
  tagUint32 : Byte
  tagStruct : Byte
  /-- The "request" tag: defined, decoded as any other unrecognised tag (30_encoding.md R70). -/
  tagRequest : Byte
  /-- The one response byte. -/
  respAck : Byte
  /-- Defined, never emitted (43_response_hook.md R141). -/
  respNack : Byte
  /-- Tag of a device error raised before the header is known. -/
  errTagUnknown : Byte
  /-- Capacity of the Raw Buffer in bytes. -/
  rawCap : Nat
  /-- Capacity of the staging area in bytes (90_conflicts.md C2, log 12). -/
  stageCap : Nat
  /-- Largest value of the one-byte LEN field. -/
  lenMax : Nat
  /-- Checksum polynomial, reflected form. -/
  crcPolyReflected : Byte
  /-- Checksum seed at the start of a packet. -/
  crcSeed : Byte
  /-- Required payload length of each fixed-width type (30_encoding.md R68). -/
  wI8 : Nat
  wI16 : Nat
  wU16 : Nat
  wI32 : Nat
  wU32 : Nat
  wF32 : Nat
  /-- Reset value of LAST_CMD. -/
  lastCmdReset : Byte
  /-- The hook present after reset, if one is. The name of an installed capability is a Nat (`Machine.HookId`). -/
  hookAtReset : Option Nat
deriving DecidableEq, Repr

/-- This hardware: the values of the table of R5. DESIGN CHOICE (log 7): the last two are the spec's own decision D9. -/
def Config.device : Config where
  selSendVariable := 0x01#8
  tagUint16 := 0x0D#8
  tagInt16 := 0x0E#8
  tagInt8 := 0x0F#8
  tagInt32 := 0x10#8
  tagFloat32 := 0x11#8
  tagUint32 := 0x12#8
  tagStruct := 0x14#8
  tagRequest := 0x20#8
  respAck := 0x30#8
  respNack := 0x31#8
  errTagUnknown := 0x00#8
  rawCap := 32
  stageCap := 256
  lenMax := 255
  crcPolyReflected := 0x8C#8
  crcSeed := 0x00#8
  wI8 := 1
  wI16 := 2
  wU16 := 2
  wI32 := 4
  wU32 := 4
  wF32 := 4
  lastCmdReset := 0x00#8
  hookAtReset := none

/-- The seven native tags (00_scope.md R9 "native tag"; 30_encoding.md R67). -/
def Config.nativeTags (cfg : Config) : List Byte :=
  [cfg.tagUint16, cfg.tagInt16, cfg.tagInt8, cfg.tagInt32, cfg.tagFloat32, cfg.tagUint32, cfg.tagStruct]

/-- A tag the dispatcher recognises natively; every other tag takes the delegate path (30_encoding.md R62). -/
def Config.isNative (cfg : Config) (t : Byte) : Bool := cfg.nativeTags.contains t

/-- The records that fit the widths of the machine's state: the native tags are distinct, RAW_LEN (6 bits, 10_state.md R19)
can count to the Raw Buffer's capacity, LEN is one byte and the staging area holds its largest value (R25), and each required
length is its register's width in bytes (R11 to R16). -/
def Config.valid (cfg : Config) : Bool :=
  decide (cfg.nativeTags.Nodup ∧ cfg.rawCap < 2 ^ 6 ∧ cfg.lenMax = 2 ^ 8 - 1 ∧ cfg.lenMax ≤ cfg.stageCap ∧
    cfg.wI8 = 1 ∧ cfg.wI16 = 2 ∧ cfg.wU16 = 2 ∧ cfg.wI32 = 4 ∧ cfg.wU32 = 4 ∧ cfg.wF32 = 4)

end Sys2Proof
end

