-- ==== Sys2Proof/Machine/Checksum.lean ====
section
/-!
DEFINITION. The Checksum Validator's function (41_checksum.md R100 to R102). The loop is the spec's reading D5 of the
source's four facts (log 6).
-/

namespace Sys2Proof.Machine

/-- One iteration of the loop of R100: shift right, exclusive-or the polynomial when the bit shifted out was 1. -/
def crcShift (cfg : Config) (x : Byte) : Byte :=
  if x.getLsbD 0 then (x >>> 1) ^^^ cfg.crcPolyReflected else x >>> 1

/-- R100: `n` iterations. -/
def crcShifts (cfg : Config) : Nat → Byte → Byte
  | 0, x => x
  | n + 1, x => crcShifts cfg n (crcShift cfg x)

/-- R100, CRC8Update(c, b). -/
def crc8Update (cfg : Config) (c b : Byte) : Byte := crcShifts cfg 8 (c ^^^ b)

/-- R100, the equivalent form: one data bit `m` of the byte into the running value. -/
def crcMixBit (cfg : Config) (c : Byte) (m : Bool) : Byte :=
  if c.getLsbD 0 ^^ m then (c >>> 1) ^^^ cfg.crcPolyReflected else c >>> 1

/-- R100, the equivalent form: data bits 0 to 7 in that order ("LSB-first"). -/
def crc8UpdateBitSerial (cfg : Config) (c b : Byte) : Byte :=
  (List.range 8).foldl (fun x i => crcMixBit cfg x (b.getLsbD i)) c

/-- R101, CRC8(seed, s). -/
def crc8 (cfg : Config) : Byte → List Byte → Byte
  | seed, [] => seed
  | seed, b :: rest => crc8 cfg (crc8Update cfg seed b) rest

/-- The LEN byte of a payload (30_encoding.md R63). -/
def lenByte (p : List Byte) : Byte := BitVec.ofNat 8 p.length

/-- R102: the checksum of a packet covers TYPE, LEN and every payload byte, in that order. -/
def packetCrc (cfg : Config) (t : Byte) (p : List Byte) : Byte := crc8 cfg cfg.crcSeed ([t, lenByte p] ++ p)

end Sys2Proof.Machine
end

