-- ==== Sys2Proof/Machine/State.lean ====
section
/-!
DEFINITION. The state of the machine (10_state.md), as plain data: the retained state, the transient state, the
inputs still to come from the environment, and the event trace; its value after reset; the reasons a step can stop.
-/

namespace Sys2Proof.Machine

/-- The sequencer's six states (10_state.md R22). -/
inductive Seq where
  | idle | headerRead | payloadRead | checksumRead | dispatchedAccepted | dispatchedRejected
deriving DecidableEq, Repr

/-- The transport's answer to a receive request: exactly the bytes asked for, or the failure flag (00_scope.md R8). -/
inductive RecvAnswer where
  | ok (bytes : List Byte)
  | fail
deriving DecidableEq, Repr

/-- One use of a primitive (00_scope.md R8). -/
inductive Event where
  | recv (n : Nat) (answer : RecvAnswer)
  | send (bytes : List Byte)
  | err (tag : Byte)
  | hook (tag : Byte) (answer : Bool)
deriving DecidableEq, Repr

/-- What happens on the receive port (20_memory.md R41): one byte transferred (`rx_valid`), or the failure flag
(`rx_fail`), which ends the request in progress. -/
inductive RxEvent where
  | byte (b : Byte)
  | fail
deriving DecidableEq, Repr

/-- A name for the capability wired to the hook port (10_state.md R21); the capability itself is outside the block. -/
abbrev HookId := Nat

/-- The owner's read ports (20_memory.md R44). -/
inductive Port where
  | regI8 | regI16 | regU16 | regI32 | regU32 | regF32 | rawBuf | rawLen | lastCmd
deriving DecidableEq, Repr

/-- The ways a hook may call back into the block, none of which has a meaning (70_reset_and_hazards.md R202). -/
inductive Reentry where
  | poll | installHook (h : HookId) | reset
deriving DecidableEq, Repr

/-- What a hook does while it is being called: it may read the ports, it may (wrongly) re-enter, and it answers. -/
inductive HookEvent where
  | reads (p : Port)
  | reenters (r : Reentry)
  | answers (handled : Bool)
deriving DecidableEq, Repr

/-- The owner's operations (43_response_hook.md R152). A poll comes in two forms, the two levels of 40_framing.md R91:
`poll` is the whole poll as one atomic step (R80); `pollPulse` is only the pulse on the poll port (20_memory.md R46), after
which the sequencer makes its transitions (R89) while the owner does `wait`, or another of its operations. -/
inductive OwnerOp where
  | poll | pollPulse | wait | installHook (h : HookId) | reset | read (p : Port)
deriving DecidableEq, Repr

/-- Retained state: what survives from one poll to the next (10_state.md R10). -/
structure Retained where
  /-- REG_I8 (R11) -/
  regI8 : BitVec 8
  /-- REG_I16 (R12) -/
  regI16 : BitVec 16
  /-- REG_U16 (R13) -/
  regU16 : BitVec 16
  /-- REG_I32 (R14) -/
  regI32 : BitVec 32
  /-- REG_U32 (R15) -/
  regU32 : BitVec 32
  /-- REG_F32 (R16), an IEEE-754 binary32 bit pattern -/
  regF32 : BitVec 32
  /-- RAW_BUF[0:RAW_LEN] (R18); bytes at RAW_LEN and above are not represented (log 9) -/
  rawBuf : List Byte
  /-- RAW_LEN (R19) -/
  rawLen : BitVec 6
  /-- LAST_CMD (R20) -/
  lastCmd : Byte
  /-- HOOK (R21) -/
  hook : Option HookId
deriving DecidableEq, Repr

/-- Transient state: it has a meaning only inside one poll and no owner port shows it (10_state.md R10, R28). -/
structure Transient where
  /-- SEQ (R22) -/
  seq : Seq
  /-- `busy` (20_memory.md R46): a poll is in progress -/
  busy : Bool
  /-- `hook_req` (20_memory.md R45): raised until the hook answers -/
  hookReq : Bool
  /-- F_SEL, F_TYPE, F_LEN, F_CHK (R24) -/
  fSel : Byte
  fType : Byte
  fLen : Byte
  fChk : Byte
  /-- STAGE[0:F_LEN] (R25), the staged payload -/
  stage : List Byte
  /-- IDX (R23) -/
  idx : BitVec 9
  /-- CRC_RUN (R26) -/
  crcRun : Byte
  /-- rx_fail, CRC_OK, LEN_OK, HANDLED (R27) -/
  rxFail : Bool
  crcOk : Bool
  lenOk : Bool
  handled : Bool
deriving DecidableEq, Repr

/-- The environment's inputs still to come (00_scope.md R6), no state of the block: the owner's operations, the receive
port's events, and what the hook does when called, each in order. A claim about every state is a claim about every
behaviour of the environment (logs 2, 3 and 22). -/
structure Env where
  owner : List OwnerOp
  rx : List RxEvent
  hookIn : List HookEvent
deriving DecidableEq, Repr

structure State where
  retained : Retained
  transient : Transient
  env : Env
  /-- The event trace (00_scope.md R8), oldest first: a modelling device of the spec (D20, log 20). -/
  trace : List Event
deriving DecidableEq, Repr

/-- The two ways the block waits for ever. Both are stuck states: the block has no step of its own until the
environment answers (70_reset_and_hazards.md R208); "never model it as a timeout, an error or a false answer". -/
inductive Fault where
  /-- A receive request that the transport has not answered (93_implementation_defined.md U7). Raised by `poll` and by
  `tick`. Safe: the model stops where the hardware waits. -/
  | transportUnanswered
  /-- A hook that has not answered (43_response_hook.md R147; U6). Raised by `execExt` and by `tick`. Safe. -/
  | hookUnanswered
deriving DecidableEq, Repr

/-- Situations to which the spec gives no meaning. -/
inductive Refusal where
  /-- An instruction that has no meaning yet. Raised by no arm of `exec`. Safe. -/
  | notModelled (mnemonic : String)
  /-- The hook called back into the block while it ran (70_reset_and_hazards.md R202; U5). Raised by `execExt` and by
  `tick`. Safe. -/
  | hookReentry (r : Reentry)
  /-- InstallHook during a poll (70_reset_and_hazards.md R203; U5). Raised by `ownerStep`. Safe. -/
  | hookInstallDuringPoll
deriving DecidableEq, Repr

/-- What a step answers. -/
abbrev StepResult := Host.Outcome State Fault Refusal

/-- How a poll ended (40_framing.md R88). Stored nowhere. -/
inductive PollOutcome where
  | noFrame
  | otherSelector
  | readFailure (tag : Byte)
  | rejected (tag : Byte)
  | accepted (tag : Byte)
deriving DecidableEq, Repr

/-- 10_state.md R30: the Typed Registers are zero (stated); the rest is decided by the spec (D9, log 7). -/
def Retained.reset (cfg : Config) : Retained where
  regI8 := 0
  regI16 := 0
  regU16 := 0
  regI32 := 0
  regU32 := 0
  regF32 := 0
  rawBuf := []
  rawLen := 0
  lastCmd := cfg.lastCmdReset
  hook := cfg.hookAtReset

/-- 10_state.md R30: SEQ is Idle. The rest is "unspecified" there; its values here are DESIGN CHOICE (logs 8, 24). -/
def Transient.reset : Transient where
  seq := .idle
  busy := false
  hookReq := false
  fSel := 0
  fType := 0
  fLen := 0
  fChk := 0
  stage := []
  idx := 0
  crcRun := 0
  rxFail := false
  crcOk := false
  lenOk := false
  handled := false

/-- 70_reset_and_hazards.md R190: right after reset, with nothing asked of the block and nothing offered to it. -/
def State.resetWith (cfg : Config) : State where
  retained := Retained.reset cfg
  transient := Transient.reset
  env := { owner := [], rx := [], hookIn := [] }
  trace := []

/-- This hardware right after reset. -/
def State.reset : State := State.resetWith .device

/-- A poll is in progress: `busy` is high, or SEQ is not Idle (20_memory.md R46). -/
def State.inPoll (s : State) : Bool := s.transient.busy || s.transient.seq != .idle

end Sys2Proof.Machine
end

