-- ==== Sys2Proof/Machine/Ops.lean ====
section
/-!
DEFINITION. The named operations every other file is built from: the four primitives of 00_scope.md R8, the writes of
the retained state, the commit (20_memory.md R51), and the device error (60_exceptions.md R160).
-/

namespace Sys2Proof.Machine

/-- Appends one event to the event trace (00_scope.md R8). -/
def appendEvent (e : Event) (s : State) : State := { s with trace := s.trace ++ [e] }

/-! ## Recv -/

/-- What the receive port has for a request. -/
inductive RxResult where
  | unanswered
  | answered (a : RecvAnswer) (rest : List RxEvent)
deriving DecidableEq, Repr

/-- Puts a byte in front of a successful answer; a failure delivers nothing. -/
def consByte (b : Byte) : RxResult → RxResult
  | .answered (.ok bs) rest => .answered (.ok (b :: bs)) rest
  | r => r

/-- 20_memory.md R41: a request of `n` bytes takes one byte per `rx_valid`; the failure flag before the n-th byte ends
it as Fail, and the bytes it had drawn are seen by no rule (D3, log 13). With no further event it is unanswered. -/
def takeRx : Nat → List RxEvent → RxResult
  | 0, rx => .answered (.ok []) rx
  | _ + 1, [] => .unanswered
  | _ + 1, .fail :: rx => .answered .fail rx
  | n + 1, .byte b :: rx => consByte b (takeRx n rx)

/-- Recv(n) (00_scope.md R8): consumes what the port delivered, sets rx_fail (10_state.md R27) and appends the event.
None when the transport has not answered. -/
def recv (n : Nat) (s : State) : Option (RecvAnswer × State) :=
  match takeRx n s.env.rx with
  | .unanswered => none
  | .answered a rest =>
    some (a, appendEvent (.recv n a)
      { s with env := { s.env with rx := rest }, transient := { s.transient with rxFail := a == .fail } })

/-! ## The poll's beginning and end -/

/-- The poll pulse in Idle: busy is high from now on (20_memory.md R46). -/
def startPoll (s : State) : State := { s with transient := { s.transient with busy := true } }

/-- SEQ <- Idle, and the poll is over (40_framing.md R80 line 9; 20_memory.md R45, R46). -/
def endPoll (s : State) : State :=
  { s with transient := { s.transient with seq := .idle, busy := false, hookReq := false } }

/-! ## The device error -/

/-- The causes of a device error, labels of the spec, visible on no port (60_exceptions.md R160 to R167). -/
inductive ErrorKind where
  | hdr | cap | pay | chkrd | crc | len | unk
deriving DecidableEq, Repr

/-- The tag that goes with a cause (60_exceptions.md R161 to R168; 30_encoding.md R73): tag 0 while the header is not
known, else the packet's type. -/
def errorTag (cfg : Config) (k : ErrorKind) (fType : Byte) : Byte :=
  match k with
  | .hdr => cfg.errTagUnknown
  | .cap => fType
  | .pay => fType
  | .chkrd => fType
  | .crc => fType
  | .len => fType
  | .unk => fType

/-- RaiseDeviceError (00_scope.md R8), with HANDLED false (60_exceptions.md R160 (1), (3)). -/
def signalError (cfg : Config) (k : ErrorKind) (fType : Byte) (s : State) : State :=
  appendEvent (.err (errorTag cfg k fType)) { s with transient := { s.transient with handled := false } }

/-- 60_exceptions.md R160, raise DeviceError: the one failure action. The event, then SEQ <- Idle, and the poll ends. It
saves nothing and changes no retained state. There is no return from it: the next poll is processed like any other
(R172). -/
def raiseDeviceError (cfg : Config) (k : ErrorKind) (fType : Byte) (s : State) : State :=
  endPoll (signalError cfg k fType s)

/-! ## Writes of the retained state -/

def writeI8 (v : BitVec 8) (r : Retained) : Retained := { r with regI8 := v }
def writeI16 (v : BitVec 16) (r : Retained) : Retained := { r with regI16 := v }
def writeU16 (v : BitVec 16) (r : Retained) : Retained := { r with regU16 := v }
def writeI32 (v : BitVec 32) (r : Retained) : Retained := { r with regI32 := v }
def writeU32 (v : BitVec 32) (r : Retained) : Retained := { r with regU32 := v }
def writeF32 (v : BitVec 32) (r : Retained) : Retained := { r with regF32 := v }
def writeLastCmd (t : Byte) (r : Retained) : Retained := { r with lastCmd := t }

/-- 42_dispatch.md R117: RAW_BUF and RAW_LEN together, from a byte sequence that fits. -/
def writeRaw (bs : List Byte) (r : Retained) : Retained :=
  { r with rawBuf := bs, rawLen := BitVec.ofNat 6 bs.length }

/-- The one canonical form of the Raw Buffer (10_state.md R18, R19): it holds exactly RAW_LEN bytes, at most 32. The
block has no addressed memory (20_memory.md R40); this is its only retained byte storage (log 10). -/
def Memory.wf (cfg : Config) (r : Retained) : Bool :=
  decide (r.rawBuf.length = r.rawLen.toNat ∧ r.rawLen.toNat ≤ cfg.rawCap)

/-- One byte of the Raw Buffer; none at RAW_LEN and above. -/
def rawByte (i : Nat) (r : Retained) : Option Byte := r.rawBuf[i]?

/-! ## The commit and the response -/

/-- 20_memory.md R51, first two writes: the destination, then LAST_CMD (42_dispatch.md R121); HANDLED is true. -/
def commit (t : Byte) (store : Retained → Retained) (s : State) : State :=
  { s with retained := writeLastCmd t (store s.retained), transient := { s.transient with handled := true } }

/-- 43_response_hook.md R140: exactly one byte, the ACK. -/
def sendAck (cfg : Config) (s : State) : State := appendEvent (.send [cfg.respAck]) s

/-- An accepted packet: the commit, the ACK, SEQ <- Idle, as one step (20_memory.md R51). -/
def accept (cfg : Config) (t : Byte) (store : Retained → Retained) (s : State) : State :=
  endPoll (sendAck cfg (commit t store s))

/-! ## HookCall -/

/-- How a run of the hook ends. -/
inductive HookResult where
  | unanswered
  | reentered (r : Reentry)
  | answered (handled : Bool) (rest : List HookEvent)
deriving DecidableEq, Repr

/-- 43_response_hook.md R145 to R147: the hook runs until it answers. Its reads change nothing (70 R202); a call back
into the block has no meaning; with nothing further it has not answered. -/
def runHook : List HookEvent → HookResult
  | [] => .unanswered
  | .reads _ :: rest => runHook rest
  | .reenters r :: _ => .reentered r
  | .answers b :: rest => .answered b rest

/-- The hook has answered `b` to tag `t`: the answer is taken from the port and the event appended. -/
def hookAnswered (t : Byte) (b : Bool) (rest : List HookEvent) (s : State) : State :=
  appendEvent (.hook t b)
    { s with env := { s.env with hookIn := rest }, transient := { s.transient with hookReq := false } }

end Sys2Proof.Machine
end

