-- ==== Sys2Proof/Machine/Flags.lean ====
section
/-!
DEFINITION. The one-bit values of a poll (10_state.md R27): rx_fail is set by `recv`, HANDLED by `commit` and
`signalError`; CRC_OK and LEN_OK are computed here.
-/

namespace Sys2Proof.Machine

/-- 41_checksum.md R103: CRC_RUN is the checksum over header and payload; CRC_OK = (CRC_RUN == F_CHK). -/
def setCrcOk (cfg : Config) (t : Byte) (p : List Byte) (c : Byte) (s : State) : State :=
  { s with transient := { s.transient with crcRun := packetCrc cfg t p, crcOk := packetCrc cfg t p == c } }

/-- 42_dispatch.md R119: LEN_OK = (F_LEN equals the required width), for the six fixed-width tags. DESIGN CHOICE (log 30):
where it has no meaning, for another tag or a wrong checksum, no meaning of an instruction writes it and it keeps its value. -/
def setLenOk (w : Nat) (p : List Byte) (s : State) : State :=
  { s with transient := { s.transient with lenOk := p.length == w } }

end Sys2Proof.Machine
end

