-- ==== Sys2Proof/Machine/Operands.lean ====
section
/-!
DEFINITION. Operand assembly (30_encoding.md R69), the byte orders and readings of 00_scope.md R7, and the payloads of
the packet notation of 30_encoding.md R74.
-/

namespace Sys2Proof.Machine

/-- `s[i]`, the i-th byte of a byte sequence (00_scope.md R7); only used below its length. -/
def byteAt (s : List Byte) (i : Nat) : Byte := s.getD i 0

/-- 00_scope.md R7: `b0` arrived first. -/
def le16 (b0 b1 : Byte) : BitVec 16 := b1 ++ b0
def le32 (b0 b1 b2 b3 : Byte) : BitVec 32 := b3 ++ b2 ++ b1 ++ b0

/-- 30_encoding.md R69: "direct byte reinterpret". -/
def operand8 (p : List Byte) : BitVec 8 := byteAt p 0
/-- 30_encoding.md R69: "little-endian assemble". -/
def operand16 (p : List Byte) : BitVec 16 := le16 (byteAt p 0) (byteAt p 1)
def operand32 (p : List Byte) : BitVec 32 := le32 (byteAt p 0) (byteAt p 1) (byteAt p 2) (byteAt p 3)
/-- 30_encoding.md R69: "raw copy", the first min(LEN, 32) bytes. -/
def operandRaw (cfg : Config) (p : List Byte) : List Byte := p.take cfg.rawCap

/-! The little-endian payload of a value (30_encoding.md R74). -/

def leBytes8 (v : BitVec 8) : List Byte := [v]
def leBytes16 (v : BitVec 16) : List Byte := [v.extractLsb' 0 8, v.extractLsb' 8 8]
def leBytes32 (v : BitVec 32) : List Byte :=
  [v.extractLsb' 0 8, v.extractLsb' 8 8, v.extractLsb' 16 8, v.extractLsb' 24 8]

/-! Readings (PRESUMED, log 21: two's complement G1, the binary32 layout G3). No rule of the block depends on them. -/

/-- 00_scope.md R7, as_signed_N: `v` if its top bit is 0, else `v - 2^N`. -/
def asSigned {n : Nat} (v : BitVec n) : Int := if v.msb then (v.toNat : Int) - 2 ^ n else v.toNat
/-- 00_scope.md R7, as_unsigned_N. -/
def asUnsigned {n : Nat} (v : BitVec n) : Nat := v.toNat

/-- 10_state.md R16: sign bit 31, exponent bits 30:23, fraction bits 22:0. -/
def f32Sign (v : BitVec 32) : Bool := v.msb
def f32Exponent (v : BitVec 32) : BitVec 8 := v.extractLsb' 23 8
def f32Fraction (v : BitVec 32) : BitVec 23 := v.extractLsb' 0 23

end Sys2Proof.Machine
end

