-- ==== Sys2Proof/Machine/FixedWidth.lean ====
section
/-!
DEFINITION. The dispatcher's first step, common to every command (42_dispatch.md R110), and the six fixed-width
commands (R111 to R116): each meaning for any record of parameters (`…With`), and for this hardware.
-/

namespace Sys2Proof.Machine

/-- 42_dispatch.md R110 step 1 (41_checksum.md R103): the checksum is compared before any look at the length or the
hook; on a mismatch the packet is an E_CRC and nothing else happens. -/
def withChecksum (cfg : Config) (t : Byte) (p : List Byte) (c : Byte) (s : State) (k : State → StepResult) :
    StepResult :=
  if (setCrcOk cfg t p c s).transient.crcOk then k (setCrcOk cfg t p c s)
  else .next (raiseDeviceError cfg .crc t (setCrcOk cfg t p c s))

/-- 42_dispatch.md R119: the length check, then the commit of one register, LAST_CMD and the ACK. -/
def storeFixed (cfg : Config) (t : Byte) (w : Nat) (store : Retained → Retained) (p : List Byte) (c : Byte)
    (s : State) : StepResult :=
  withChecksum cfg t p c s fun s1 =>
    if (setLenOk w p s1).transient.lenOk then .next (accept cfg t store (setLenOk w p s1))
    else .next (raiseDeviceError cfg .len t (setLenOk w p s1))

/-- SET_I8, 42_dispatch.md R111. -/
def execSetI8With (cfg : Config) (p : List Byte) (c : Byte) (s : State) : StepResult :=
  storeFixed cfg cfg.tagInt8 cfg.wI8 (writeI8 (operand8 p)) p c s

/-- SET_I8 of this hardware. -/
def execSetI8 (p : List Byte) (c : Byte) (s : State) : StepResult := execSetI8With .device p c s

/-- SET_I16, 42_dispatch.md R112. -/
def execSetI16With (cfg : Config) (p : List Byte) (c : Byte) (s : State) : StepResult :=
  storeFixed cfg cfg.tagInt16 cfg.wI16 (writeI16 (operand16 p)) p c s

/-- SET_I16 of this hardware. -/
def execSetI16 (p : List Byte) (c : Byte) (s : State) : StepResult := execSetI16With .device p c s

/-- SET_U16, 42_dispatch.md R113. -/
def execSetU16With (cfg : Config) (p : List Byte) (c : Byte) (s : State) : StepResult :=
  storeFixed cfg cfg.tagUint16 cfg.wU16 (writeU16 (operand16 p)) p c s

/-- SET_U16 of this hardware. -/
def execSetU16 (p : List Byte) (c : Byte) (s : State) : StepResult := execSetU16With .device p c s

/-- SET_I32, 42_dispatch.md R114. -/
def execSetI32With (cfg : Config) (p : List Byte) (c : Byte) (s : State) : StepResult :=
  storeFixed cfg cfg.tagInt32 cfg.wI32 (writeI32 (operand32 p)) p c s

/-- SET_I32 of this hardware. -/
def execSetI32 (p : List Byte) (c : Byte) (s : State) : StepResult := execSetI32With .device p c s

/-- SET_U32, 42_dispatch.md R115. -/
def execSetU32With (cfg : Config) (p : List Byte) (c : Byte) (s : State) : StepResult :=
  storeFixed cfg cfg.tagUint32 cfg.wU32 (writeU32 (operand32 p)) p c s

/-- SET_U32 of this hardware. -/
def execSetU32 (p : List Byte) (c : Byte) (s : State) : StepResult := execSetU32With .device p c s

/-- SET_F32, 42_dispatch.md R116: the pattern is stored bit for bit (R124). -/
def execSetF32With (cfg : Config) (p : List Byte) (c : Byte) (s : State) : StepResult :=
  storeFixed cfg cfg.tagFloat32 cfg.wF32 (writeF32 (operand32 p)) p c s

/-- SET_F32 of this hardware. -/
def execSetF32 (p : List Byte) (c : Byte) (s : State) : StepResult := execSetF32With .device p c s

end Sys2Proof.Machine
end

