-- ==== Sys2Proof/Machine/Delegate.lean ====
section
/-!
DEFINITION. The delegate path (42_dispatch.md R118) and the ignored selector (40_framing.md R82).
-/

namespace Sys2Proof.Machine

/-- 43_response_hook.md R146: the hook's answer decides; true commits LAST_CMD alone. -/
def finishHook (cfg : Config) (t : Byte) (b : Bool) (s : State) : State :=
  if b then accept cfg t id s else raiseDeviceError cfg .unk t s

/-- EXT, 42_dispatch.md R118: the hook is asked only after the checksum has passed and only when one is installed. -/
def execExtWith (cfg : Config) (t : Byte) (p : List Byte) (c : Byte) (s : State) : StepResult :=
  withChecksum cfg t p c s fun s1 =>
    match s1.retained.hook with
    | none => .next (raiseDeviceError cfg .unk t s1)
    | some _ =>
      match runHook s1.env.hookIn with
      | .unanswered => .fault .hookUnanswered
      | .reentered r => .refused (.hookReentry r)
      | .answered b rest => .next (finishHook cfg t b (hookAnswered t b rest s1))

/-- EXT of this hardware. -/
def execExt (t : Byte) (p : List Byte) (c : Byte) (s : State) : StepResult := execExtWith .device t p c s

/-- IGNORE_SELECTOR, 40_framing.md R82 (D4, log 5): the byte has been consumed; no further read, no error, no ACK, no
state change, and the poll is over. Which foreign selector it was makes no difference, and no
parameter takes part. -/
def execIgnoreSelector (_sel : Byte) (s : State) : StepResult := .next (endPoll s)

end Sys2Proof.Machine
end

