-- ==== Sys2Proof/Machine/Structured.lean ====
section
/-!
DEFINITION. The structured command (42_dispatch.md R117).
-/

namespace Sys2Proof.Machine

/-- SET_STRUCT, 42_dispatch.md R117: any length is accepted; bytes beyond 32 are dropped without an error, having
entered the checksum. -/
def execSetStructWith (cfg : Config) (p : List Byte) (c : Byte) (s : State) : StepResult :=
  withChecksum cfg cfg.tagStruct p c s fun s1 => .next (accept cfg cfg.tagStruct (writeRaw (operandRaw cfg p)) s1)

/-- SET_STRUCT of this hardware. -/
def execSetStruct (p : List Byte) (c : Byte) (s : State) : StepResult := execSetStructWith .device p c s

end Sys2Proof.Machine
end

