-- ==== Sys2Proof/Syntax.lean ====
section
/-!
DEFINITION. The instructions: one constructor per row of spec/opcode_table.json (30_encoding.md R67, R75).
-/

namespace Sys2Proof

/-- A command packet as it stands on the byte stream (30_encoding.md R60). LEN is the length of `payload`, which is
what the receiver reads for every tag (R63); `chk` is the CHECKSUM byte that was sent, right or wrong. -/
inductive Instr where
  /-- Tag 0x0D (42_dispatch.md R113). -/
  | setU16 (payload : List Byte) (chk : Byte)
  /-- Tag 0x0E (42_dispatch.md R112). -/
  | setI16 (payload : List Byte) (chk : Byte)
  /-- Tag 0x0F (42_dispatch.md R111). -/
  | setI8 (payload : List Byte) (chk : Byte)
  /-- Tag 0x10 (42_dispatch.md R114). -/
  | setI32 (payload : List Byte) (chk : Byte)
  /-- Tag 0x11 (42_dispatch.md R116). -/
  | setF32 (payload : List Byte) (chk : Byte)
  /-- Tag 0x12 (42_dispatch.md R115). -/
  | setU32 (payload : List Byte) (chk : Byte)
  /-- Tag 0x14 (42_dispatch.md R117). -/
  | setStruct (payload : List Byte) (chk : Byte)
  /-- Any tag that is not native (42_dispatch.md R118). -/
  | ext (tag : Byte) (payload : List Byte) (chk : Byte)
  /-- A first byte other than "send variable": a packet of that one byte (40_framing.md R82; 30_encoding.md R61). -/
  | ignoreSelector (sel : Byte)
deriving DecidableEq, Repr

end Sys2Proof
end

