-- ==== Sys2Proof/Machine/Dispatch.lean ====
section
/-!
DEFINITION. The dispatch table (42_dispatch.md R110 step 2): one arm per constructor of Instr.
-/

namespace Sys2Proof.Machine

def exec (i : Instr) (s : State) : Host.Outcome State Fault Refusal :=
  match i with
  | .setU16 p c => Sys2Proof.Machine.execSetU16 p c s
  | .setI16 p c => Sys2Proof.Machine.execSetI16 p c s
  | .setI8 p c => Sys2Proof.Machine.execSetI8 p c s
  | .setI32 p c => Sys2Proof.Machine.execSetI32 p c s
  | .setF32 p c => Sys2Proof.Machine.execSetF32 p c s
  | .setU32 p c => Sys2Proof.Machine.execSetU32 p c s
  | .setStruct p c => Sys2Proof.Machine.execSetStruct p c s
  | .ext t p c => Sys2Proof.Machine.execExt t p c s
  | .ignoreSelector sel => Sys2Proof.Machine.execIgnoreSelector sel s

end Sys2Proof.Machine
end

