-- ==== Sys2Proof/Machine/Execute.lean ====
section
/-!
DEFINITION. The dispatch table (42_dispatch.md R110 step 2) for any record of parameters (00_scope.md R5). `exec` of
Dispatch.lean is the same table for this hardware: arm by arm the same meaning, at `.device`.
-/

namespace Sys2Proof.Machine

def execWith (cfg : Config) (i : Instr) (s : State) : StepResult :=
  match i with
  | .setU16 p c => execSetU16With cfg p c s
  | .setI16 p c => execSetI16With cfg p c s
  | .setI8 p c => execSetI8With cfg p c s
  | .setI32 p c => execSetI32With cfg p c s
  | .setF32 p c => execSetF32With cfg p c s
  | .setU32 p c => execSetU32With cfg p c s
  | .setStruct p c => execSetStructWith cfg p c s
  | .ext t p c => execExtWith cfg t p c s
  | .ignoreSelector sel => execIgnoreSelector sel s

end Sys2Proof.Machine
end

