-- ==== Sys2Proof/Machine/Owner.lean ====
section
/-!
DEFINITION. The owner's operations on the block other than Poll (43_response_hook.md R148, R149; 70_reset_and_hazards.md
R190), and its read ports (20_memory.md R44).
-/

namespace Sys2Proof.Machine

/-- InstallHook(h), 43_response_hook.md R148: a later one replaces an earlier one; there is no removal (D12, log 17). -/
def installHook (h : HookId) (s : State) : State := { s with retained := { s.retained with hook := some h } }

/-- Reset, 70_reset_and_hazards.md R190: every element of the block's state takes its reset value, in any sequencer state
(R193). The environment is no state of the block and goes on (log 19). -/
def resetBlock (cfg : Config) (s : State) : State := { State.resetWith cfg with env := s.env }

/-- The value on one read port. -/
inductive PortValue where
  | byte (v : BitVec 8)
  | half (v : BitVec 16)
  | word (v : BitVec 32)
  | len (v : BitVec 6)
  | bytes (v : List Byte)
deriving DecidableEq, Repr

/-- 20_memory.md R44: the read ports are driven with the current retained state alone; of the Raw Buffer the stored bytes
are observable (10_state.md R18). -/
def readPort (p : Port) (r : Retained) : PortValue :=
  match p with
  | .regI8 => .byte r.regI8
  | .regI16 => .half r.regI16
  | .regU16 => .half r.regU16
  | .regI32 => .word r.regI32
  | .regU32 => .word r.regU32
  | .regF32 => .word r.regF32
  | .rawBuf => .bytes r.rawBuf
  | .rawLen => .len r.rawLen
  | .lastCmd => .byte r.lastCmd

/-! The value the owner reads (10_state.md R11 to R15). -/

def readI8 (r : Retained) : Int := asSigned r.regI8
def readI16 (r : Retained) : Int := asSigned r.regI16
def readU16 (r : Retained) : Nat := asUnsigned r.regU16
def readI32 (r : Retained) : Int := asSigned r.regI32
def readU32 (r : Retained) : Nat := asUnsigned r.regU32

end Sys2Proof.Machine
end

