-- ==== Sys2Proof/WellFormed.lean ====
section
/-!
DEFINITION. Which terms of Instr are packets of the format of 30_encoding.md R60.
-/

namespace Sys2Proof

/-- The payload's length fits the one-byte LEN field (30_encoding.md R63). -/
def payloadFits (cfg : Config) (p : List Byte) : Bool := decide (p.length ≤ cfg.lenMax)

/-- Every payload fits LEN; EXT carries no native tag (R62, R67); the ignored selector is not "send variable" (R61). -/
def Instr.wellFormed (cfg : Config) : Instr → Bool
  | .setU16 p _ => payloadFits cfg p
  | .setI16 p _ => payloadFits cfg p
  | .setI8 p _ => payloadFits cfg p
  | .setI32 p _ => payloadFits cfg p
  | .setF32 p _ => payloadFits cfg p
  | .setU32 p _ => payloadFits cfg p
  | .setStruct p _ => payloadFits cfg p
  | .ext t p _ => payloadFits cfg p && !cfg.isNative t
  | .ignoreSelector b => b != cfg.selSendVariable

end Sys2Proof
end

