-- ==== Sys2Proof/Decode.lean ====
section
/-!
DEFINITION. From bytes to instructions and back (30_encoding.md): the decoder, the encoder, the packet notation of R74
and the opcode table of R75.
-/

namespace Sys2Proof

/-- Where a byte sequence ends before its packet does. Each is a read point of 40_framing.md; a byte sequence that is
long enough always decodes (30_encoding.md R62, R71). -/
inductive DecodeError where
  /-- No selector byte (R81). -/
  | noSelector
  /-- Fewer than two header bytes (R83). -/
  | noHeader
  /-- LEN above the staging capacity (R84); no LEN reaches it. -/
  | overCapacity
  /-- Fewer than LEN payload bytes (R85). -/
  | shortPayload
  /-- No checksum byte (R86). -/
  | noChecksum
deriving DecidableEq, Repr

/-- 30_encoding.md R67: the complete map from TYPE to command, first match wins (R75). -/
def frameInstr (cfg : Config) (t : Byte) (p : List Byte) (c : Byte) : Instr :=
  if t = cfg.tagUint16 then .setU16 p c
  else if t = cfg.tagInt16 then .setI16 p c
  else if t = cfg.tagInt8 then .setI8 p c
  else if t = cfg.tagInt32 then .setI32 p c
  else if t = cfg.tagFloat32 then .setF32 p c
  else if t = cfg.tagUint32 then .setU32 p c
  else if t = cfg.tagStruct then .setStruct p c
  else .ext t p c

/-- 30_encoding.md R66: the bytes after the header of a packet with tag `t` and LEN `l`. -/
def decodeBody (cfg : Config) (t l : Byte) (bs : List Byte) : Except DecodeError (Instr × List Byte) :=
  if l.toNat > cfg.stageCap then .error .overCapacity
  else if bs.length < l.toNat then .error .shortPayload
  else
    match bs.drop l.toNat with
    | [] => .error .noChecksum
    | c :: rest => .ok (frameInstr cfg t (bs.take l.toNat) c, rest)

/-- 30_encoding.md R66: the first packet of a byte sequence and the bytes after it. The selector is tested first, and
the header is read only when it is "send variable" (R75). -/
def decode (cfg : Config) : List Byte → Except DecodeError (Instr × List Byte)
  | [] => .error .noSelector
  | sel :: bs =>
    if sel = cfg.selSendVariable then
      match bs with
      | t :: l :: body => decodeBody cfg t l body
      | _ => .error .noHeader
    else .ok (.ignoreSelector sel, bs)

/-- 30_encoding.md R60: the bytes of a packet, with the CHECKSUM byte given. -/
def encodeFrame (cfg : Config) (t : Byte) (p : List Byte) (c : Byte) : List Byte :=
  [cfg.selSendVariable, t, Machine.lenByte p] ++ p ++ [c]

/-- The words of an instruction (R60, R67). -/
def encode (cfg : Config) : Instr → List Byte
  | .setU16 p c => encodeFrame cfg cfg.tagUint16 p c
  | .setI16 p c => encodeFrame cfg cfg.tagInt16 p c
  | .setI8 p c => encodeFrame cfg cfg.tagInt8 p c
  | .setI32 p c => encodeFrame cfg cfg.tagInt32 p c
  | .setF32 p c => encodeFrame cfg cfg.tagFloat32 p c
  | .setU32 p c => encodeFrame cfg cfg.tagUint32 p c
  | .setStruct p c => encodeFrame cfg cfg.tagStruct p c
  | .ext t p c => encodeFrame cfg t p c
  | .ignoreSelector sel => [sel]

/-- 30_encoding.md R74, encode(tag, P): the packet with the right checksum (the notation `PKT`). -/
def packet (cfg : Config) (t : Byte) (p : List Byte) : List Byte := encodeFrame cfg t p (Machine.packetCrc cfg t p)

/-- The TYPE byte of an instruction; none for a foreign selector, whose packet has no header. -/
def Instr.tag? (cfg : Config) : Instr → Option Byte
  | .setU16 _ _ => some cfg.tagUint16
  | .setI16 _ _ => some cfg.tagInt16
  | .setI8 _ _ => some cfg.tagInt8
  | .setI32 _ _ => some cfg.tagInt32
  | .setF32 _ _ => some cfg.tagFloat32
  | .setU32 _ _ => some cfg.tagUint32
  | .setStruct _ _ => some cfg.tagStruct
  | .ext t _ _ => some t
  | .ignoreSelector _ => none

/-- The PAYLOAD of an instruction (empty for a foreign selector). -/
def Instr.payload : Instr → List Byte
  | .setU16 p _ => p
  | .setI16 p _ => p
  | .setI8 p _ => p
  | .setI32 p _ => p
  | .setF32 p _ => p
  | .setU32 p _ => p
  | .setStruct p _ => p
  | .ext _ p _ => p
  | .ignoreSelector _ => []

/-- The row of spec/opcode_table.json an instruction belongs to. -/
def Instr.mnemonic : Instr → String
  | .setU16 _ _ => "SET_U16"
  | .setI16 _ _ => "SET_I16"
  | .setI8 _ _ => "SET_I8"
  | .setI32 _ _ => "SET_I32"
  | .setF32 _ _ => "SET_F32"
  | .setU32 _ _ => "SET_U32"
  | .setStruct _ _ => "SET_STRUCT"
  | .ext _ _ _ => "EXT"
  | .ignoreSelector _ => "IGNORE_SELECTOR"

/-- One row of spec/opcode_table.json (R75). -/
structure OpcodeRow where
  mnemonic : String
  matchBits : BitVec 24
  mask : BitVec 24
deriving DecidableEq, Repr

/-- R75: the 24-bit key, SELECTOR in bits 23:16, TYPE in bits 15:8, LEN in bits 7:0. -/
def opcodeKey (sel t l : Byte) : BitVec 24 := sel ++ t ++ l

/-- A row of R75 for a native tag: selector and tag are compared, LEN is free. -/
def nativeRow (cfg : Config) (mnemonic : String) (t : Byte) : OpcodeRow :=
  ⟨mnemonic, opcodeKey cfg.selSendVariable t 0x00#8, 0xFFFF00#24⟩

/-- R75: the table, in its order. -/
def opcodeTable (cfg : Config) : List OpcodeRow :=
  [nativeRow cfg "SET_U16" cfg.tagUint16, nativeRow cfg "SET_I16" cfg.tagInt16, nativeRow cfg "SET_I8" cfg.tagInt8,
   nativeRow cfg "SET_I32" cfg.tagInt32, nativeRow cfg "SET_F32" cfg.tagFloat32, nativeRow cfg "SET_U32" cfg.tagUint32,
   nativeRow cfg "SET_STRUCT" cfg.tagStruct, ⟨"EXT", opcodeKey cfg.selSendVariable 0x00#8 0x00#8, 0xFF0000#24⟩,
   ⟨"IGNORE_SELECTOR", 0x000000#24, 0x000000#24⟩]

/-- R75: "The table is decoded top down, first match wins." -/
def selectRow (cfg : Config) (key : BitVec 24) : Option OpcodeRow :=
  (opcodeTable cfg).find? fun r => key &&& r.mask == r.matchBits

/-- 30_encoding.md R66: how many bytes the packet at the head of `bs` has, from its first three bytes. -/
def packetLength (cfg : Config) : List Byte → Nat
  | sel :: _ :: l :: _ => if sel = cfg.selSendVariable then 4 + l.toNat else 1
  | _ => 1

/-- The `n` low bytes of `w`, the most significant first. -/
def bigEndianBytes : Nat → Nat → List Byte
  | 0, _ => []
  | n + 1, w => BitVec.ofNat 8 (w / 256 ^ n) :: bigEndianBytes n w

/-- The bytes, in arrival order, of an instruction whose bits spec/opcode_table.json numbers as `w` (R75: SELECTOR in
the top byte of the key, log 23), followed by zeros up to the longest packet (259 bytes, R60); cut to the packet. -/
def tablePacket (cfg : Config) (nbits w : Nat) : List Byte :=
  let bs := bigEndianBytes (nbits / 8) w ++ List.replicate (4 + cfg.lenMax) 0x00#8
  bs.take (packetLength cfg bs)

/-- The instruction this hardware's decoder reads from a word of the opcode table. -/
def decodeTableWord (nbits w : Nat) : Option Instr :=
  match decode .device (tablePacket .device nbits w) with
  | .ok (i, _) => some i
  | .error _ => none

end Sys2Proof
end

