-- ==== Sys2Proof/Machine/Receiver.lean ====
section
/-!
DEFINITION. The Packet Receiver (40_framing.md R81 to R87): the four reads of a packet, and the fetch of one
instruction made of them.
-/

namespace Sys2Proof.Machine

/-- How one read of the receiver ends. -/
inductive ReadStep where
  /-- The transport has not answered: the block waits. -/
  | unanswered
  /-- The poll is over. -/
  | ended (o : PollOutcome) (s : State)
  /-- The bytes are latched; the receiver goes on. -/
  | proceed (s : State)
deriving DecidableEq, Repr

/-- R81: the selector read. Its failure is no error. CRC_RUN is seeded (10_state.md R26, R28). -/
def readSelector (cfg : Config) (s : State) : ReadStep :=
  match recv 1 s with
  | none => .unanswered
  | some (.fail, s1) => .ended .noFrame (endPoll s1)
  | some (.ok bs, s1) =>
    .proceed { s1 with transient := { s1.transient with fSel := byteAt bs 0, crcRun := cfg.crcSeed } }

/-- R82: the selector denotes "send variable". -/
def sendVariable (cfg : Config) (s : State) : Bool := s.transient.fSel == cfg.selSendVariable

/-- R80 line 3. -/
def enterHeader (s : State) : State := { s with transient := { s.transient with seq := .headerRead } }

/-- R83: the header read, one request of two bytes, first the tag, then the length; R84: the capacity check, the staging
capacity being a parameter (log 12). CRC_RUN advances over the header (10_state.md R26, log 24). -/
def readHeader (cfg : Config) (s : State) : ReadStep :=
  match recv 2 s with
  | none => .unanswered
  | some (.fail, s1) => .ended (.readFailure cfg.errTagUnknown) (raiseDeviceError cfg .hdr s1.transient.fType s1)
  | some (.ok bs, s1) =>
    let t := byteAt bs 0
    let l := byteAt bs 1
    let s2 : State := { s1 with transient := { s1.transient with fType := t, fLen := l } }
    if l.toNat > cfg.stageCap then .ended (.readFailure t) (raiseDeviceError cfg .cap t s2)
    else .proceed { s2 with transient :=
      { s2.transient with seq := .payloadRead, idx := 0, crcRun := crc8 cfg s2.transient.crcRun [t, l] } }

/-- The payload is staged in arrival order (10_state.md R25), IDX counts it (R23), CRC_RUN advances over it. -/
def stagePayload (cfg : Config) (p : List Byte) (s : State) : State :=
  { s with transient := { s.transient with
      seq := .checksumRead, stage := p, idx := BitVec.ofNat 9 p.length, crcRun := crc8 cfg s.transient.crcRun p } }

/-- R85: the payload read, for every tag and every length; no request at all when LEN is 0 (D16, log 14). -/
def readPayload (cfg : Config) (s : State) : ReadStep :=
  if s.transient.fLen = 0 then .proceed (stagePayload cfg [] s)
  else
    match recv s.transient.fLen.toNat s with
    | none => .unanswered
    | some (.fail, s1) => .ended (.readFailure s1.transient.fType) (raiseDeviceError cfg .pay s1.transient.fType s1)
    | some (.ok p, s1) => .proceed (stagePayload cfg p s1)

/-- R86: the checksum-byte read. The receiver does not compare it. -/
def readChecksum (cfg : Config) (s : State) : ReadStep :=
  match recv 1 s with
  | none => .unanswered
  | some (.fail, s1) => .ended (.readFailure s1.transient.fType) (raiseDeviceError cfg .chkrd s1.transient.fType s1)
  | some (.ok bs, s1) => .proceed { s1 with transient := { s1.transient with fChk := byteAt bs 0 } }

/-- What a poll fetched. -/
inductive Fetched where
  | unanswered
  | ended (o : PollOutcome) (s : State)
  | command (i : Instr) (s : State)
deriving DecidableEq, Repr

/-- The next read, once this one has succeeded; a failure ends the packet at once (R87). -/
def afterRead (r : ReadStep) (k : State → Fetched) : Fetched :=
  match r with
  | .unanswered => .unanswered
  | .ended o s => .ended o s
  | .proceed s => k s

/-- R80 lines 2 to 6, once the selector is "send variable". -/
def fetchFrame (cfg : Config) (s : State) : Fetched :=
  afterRead (readHeader cfg (enterHeader s)) fun s2 =>
  afterRead (readPayload cfg s2) fun s3 =>
  afterRead (readChecksum cfg s3) fun s4 =>
    .command (frameInstr cfg s4.transient.fType s4.transient.stage s4.transient.fChk) s4

/-- R80 lines 1 to 6: one instruction, from the transport's byte stream. -/
def fetch (cfg : Config) (s : State) : Fetched :=
  afterRead (readSelector cfg s) fun s1 =>
    if sendVariable cfg s1 then fetchFrame cfg s1 else .command (.ignoreSelector s1.transient.fSel) s1

/-- The RecvEv of a frame that was received whole (R88): three, or four when LEN is not 0. -/
def frameEvents (cfg : Config) (t : Byte) (p : List Byte) (c : Byte) : List Event :=
  [.recv 1 (.ok [cfg.selSendVariable]), .recv 2 (.ok [t, lenByte p])] ++
    (if p = [] then [] else [.recv p.length (.ok p)]) ++ [.recv 1 (.ok [c])]

/-- The RecvEv of an instruction that was received whole (R88). -/
def recvEvents (cfg : Config) : Instr → List Event
  | .setU16 p c => frameEvents cfg cfg.tagUint16 p c
  | .setI16 p c => frameEvents cfg cfg.tagInt16 p c
  | .setI8 p c => frameEvents cfg cfg.tagInt8 p c
  | .setI32 p c => frameEvents cfg cfg.tagInt32 p c
  | .setF32 p c => frameEvents cfg cfg.tagFloat32 p c
  | .setU32 p c => frameEvents cfg cfg.tagUint32 p c
  | .setStruct p c => frameEvents cfg cfg.tagStruct p c
  | .ext t p c => frameEvents cfg t p c
  | .ignoreSelector sel => [.recv 1 (.ok [sel])]

end Sys2Proof.Machine
end

