-- ==== Sys2Proof/Machine/Sequencer.lean ====
section
/-!
DEFINITION. The block as a sequencer (40_framing.md R89): one transition of SEQ a call, with the register-store mux of
42_dispatch.md R120 at its end. R91 says that it and the poll of R80 describe the same behaviour; an obligation states
it. Its states inside a poll are where a reset, a poll pulse or a read of the ports can also land (70 R193, R200, R204).
-/

namespace Sys2Proof.Machine

/-! ## The register-store mux (42_dispatch.md R120) -/

/-- The write enables, one-hot or all zero, and the two lines that follow from them. -/
structure WriteEnables where
  weI8 : Bool
  weI16 : Bool
  weU16 : Bool
  weI32 : Bool
  weU32 : Bool
  weF32 : Bool
  weRaw : Bool
  weLast : Bool
  ack : Bool
deriving DecidableEq, Repr

/-- R120, the conditions. `hookTrue` is: a hook is installed and answered true. -/
def writeEnables (cfg : Config) (crcOk : Bool) (t l : Byte) (hookTrue : Bool) : WriteEnables :=
  let weI8 := crcOk && t == cfg.tagInt8 && l.toNat == cfg.wI8
  let weI16 := crcOk && t == cfg.tagInt16 && l.toNat == cfg.wI16
  let weU16 := crcOk && t == cfg.tagUint16 && l.toNat == cfg.wU16
  let weI32 := crcOk && t == cfg.tagInt32 && l.toNat == cfg.wI32
  let weU32 := crcOk && t == cfg.tagUint32 && l.toNat == cfg.wU32
  let weF32 := crcOk && t == cfg.tagFloat32 && l.toNat == cfg.wF32
  let weRaw := crcOk && t == cfg.tagStruct
  let weLast := weI8 || weI16 || weU16 || weI32 || weU32 || weF32 || weRaw ||
    (crcOk && !cfg.isNative t && hookTrue)
  { weI8, weI16, weU16, weI32, weU32, weF32, weRaw, weLast, ack := weLast }

/-- One register behind its enable: "A register whose enable is 0 keeps its value." -/
def gated {α : Type} (enable : Bool) (new old : α) : α := if enable then new else old

/-- R120: every register of the retained state behind its enable, its data input taken from STAGE. -/
def muxStore (cfg : Config) (we : WriteEnables) (t : Byte) (stage : List Byte) (r : Retained) : Retained where
  regI8 := gated we.weI8 (operand8 stage) r.regI8
  regI16 := gated we.weI16 (operand16 stage) r.regI16
  regU16 := gated we.weU16 (operand16 stage) r.regU16
  regI32 := gated we.weI32 (operand32 stage) r.regI32
  regU32 := gated we.weU32 (operand32 stage) r.regU32
  regF32 := gated we.weF32 (operand32 stage) r.regF32
  rawBuf := gated we.weRaw (operandRaw cfg stage) r.rawBuf
  rawLen := gated we.weRaw (BitVec.ofNat 6 (operandRaw cfg stage).length) r.rawLen
  lastCmd := gated we.weLast t r.lastCmd
  hook := r.hook

/-! ## The transitions (40_framing.md R89) -/

/-- A refused packet on its way out: the error is signalled, SEQ is DispatchedRejected. -/
def rejectNow (cfg : Config) (k : ErrorKind) (s : State) : State :=
  let s1 := signalError cfg k s.transient.fType s
  { s1 with transient := { s1.transient with seq := .dispatchedRejected } }

/-- The mux decides: HANDLED = we_last. With it the commit is done and SEQ is DispatchedAccepted; without it the packet
is rejected with cause `k`. -/
def dispatchMux (cfg : Config) (hookTrue : Bool) (k : ErrorKind) (s : State) : State :=
  let we := writeEnables cfg s.transient.crcOk s.transient.fType s.transient.fLen hookTrue
  if we.weLast then
    { s with
      retained := muxStore cfg we s.transient.fType s.transient.stage s.retained
      transient := { s.transient with handled := true, seq := .dispatchedAccepted } }
  else rejectNow cfg k s

/-- The checksum byte is latched and compared with the running value: CRC_OK (10_state.md R27), and LEN_OK beside it.
DESIGN CHOICE (log 30): LEN_OK is computed whether or not the checksum is right, and is false for a tag that is not
fixed-width, where the spec gives it no meaning; no definition reads it here. -/
def latchFlags (cfg : Config) (s : State) : State :=
  { s with transient := { s.transient with
      crcOk := s.transient.crcRun == s.transient.fChk
      lenOk := (s.transient.fType == cfg.tagInt8 && s.transient.fLen.toNat == cfg.wI8) ||
        (s.transient.fType == cfg.tagInt16 && s.transient.fLen.toNat == cfg.wI16) ||
        (s.transient.fType == cfg.tagUint16 && s.transient.fLen.toNat == cfg.wU16) ||
        (s.transient.fType == cfg.tagInt32 && s.transient.fLen.toNat == cfg.wI32) ||
        (s.transient.fType == cfg.tagUint32 && s.transient.fLen.toNat == cfg.wU32) ||
        (s.transient.fType == cfg.tagFloat32 && s.transient.fLen.toNat == cfg.wF32) } }

/-- The whole frame is in. A wrong checksum is an E_CRC; a native tag goes to the mux; another tag raises hook_req when
a hook is installed (20_memory.md R45) and stays in ChecksumRead, else it is an E_UNK. -/
def decideFrame (cfg : Config) (s : State) : State :=
  if !s.transient.crcOk then rejectNow cfg .crc s
  else if cfg.isNative s.transient.fType then dispatchMux cfg false .len s
  else if s.retained.hook = none then rejectNow cfg .unk s
  else { s with transient := { s.transient with hookReq := true } }

/-- The block waits for the hook (43_response_hook.md R145): SEQ does not advance until it answers. -/
def awaitHook (cfg : Config) (s : State) : StepResult :=
  match runHook s.env.hookIn with
  | .unanswered => .fault .hookUnanswered
  | .reentered r => .refused (.hookReentry r)
  | .answered b rest => .next (dispatchMux cfg b .unk (hookAnswered s.transient.fType b rest s))

/-- A read's end as a transition: its failure is a transition back to Idle. -/
def readTransition (r : ReadStep) (k : State → State) : StepResult :=
  match r with
  | .unanswered => .fault .transportUnanswered
  | .ended _ s => .next s
  | .proceed s => .next (k s)

/-- R89: one transition of SEQ. With no poll in progress the block stays in Idle; while an answer is missing it has no
transition (70_reset_and_hazards.md R208). -/
def tick (cfg : Config) (s : State) : StepResult :=
  match s.transient.seq with
  | .idle =>
    if s.transient.busy then
      readTransition (readSelector cfg s) fun s1 => if sendVariable cfg s1 then enterHeader s1 else endPoll s1
    else .next s
  | .headerRead => readTransition (readHeader cfg s) id
  | .payloadRead => readTransition (readPayload cfg s) id
  | .checksumRead =>
    if s.transient.hookReq then awaitHook cfg s
    else readTransition (readChecksum cfg s) fun s1 => decideFrame cfg (latchFlags cfg s1)
  | .dispatchedAccepted => .next (endPoll (sendAck cfg s))
  | .dispatchedRejected => .next (endPoll s)

/-- At most `n` transitions, until the poll is over. -/
def tickUntilIdle (cfg : Config) : Nat → State → StepResult
  | 0, s => .next s
  | n + 1, s =>
    if s.inPoll then
      match tick cfg s with
      | .next s1 => tickUntilIdle cfg n s1
      | .fault r => .fault r
      | .refused r => .refused r
    else .next s

/-- What the block waits for in a state (10_state.md R22, the table's last column; 20_memory.md R41, R45). -/
inductive WaitsFor where
  | poll
  | recv (n : Nat)
  | hook (tag : Byte)
  | nothing
deriving DecidableEq, Repr

/-- The request on the ports in a state: `rx_req` with `rx_count`, or `hook_req` with `hook_tag`. -/
def waitsFor (s : State) : WaitsFor :=
  match s.transient.seq with
  | .idle => if s.transient.busy then .recv 1 else .poll
  | .headerRead => .recv 2
  | .payloadRead => if s.transient.fLen = 0 then .nothing else .recv s.transient.fLen.toNat
  | .checksumRead => if s.transient.hookReq then .hook s.transient.fType else .recv 1
  | .dispatchedAccepted => .nothing
  | .dispatchedRejected => .nothing

end Sys2Proof.Machine
end

