-- ==== Sys2Proof/Machine/Poll.lean ====
section
/-!
DEFINITION. Poll (40_framing.md R80), its outcome (R88), and the owner's operation that comes next (43_response_hook.md
R152).
-/

namespace Sys2Proof.Machine

/-- R80: the whole poll as one step. Fetch one instruction from the byte stream and execute it; a read that fails ends
the poll; a read that is never answered is a hang. -/
def poll (cfg : Config) (s : State) : StepResult :=
  match fetch cfg (startPoll s) with
  | .unanswered => .fault .transportUnanswered
  | .ended _ s1 => .next s1
  | .command i s1 => execWith cfg i s1

/-- R80 line 9 and R82: how a poll that fetched `i` ended. -/
def commandOutcome (cfg : Config) (i : Instr) (handled : Bool) : PollOutcome :=
  match i.tag? cfg with
  | none => .otherSelector
  | some t => if handled then .accepted t else .rejected t

/-- R88: the outcome of a poll from `s`; none when the poll does not end. -/
def pollOutcome (cfg : Config) (s : State) : Option PollOutcome :=
  match fetch cfg (startPoll s) with
  | .unanswered => none
  | .ended o _ => some o
  | .command i s1 =>
    match execWith cfg i s1 with
    | .next s2 => some (commandOutcome cfg i s2.transient.handled)
    | .fault _ => none
    | .refused _ => none

/-- One operation of the owner. A poll pulse while a poll is in progress is ignored (20_memory.md R46; 70 R200, log 18);
InstallHook during a poll has no meaning (R203); while the owner waits, the block makes a transition of its own (R89);
Reset takes effect in any state (R193); a read changes nothing (43_response_hook.md R149). -/
def ownerStep (cfg : Config) (op : OwnerOp) (s : State) : StepResult :=
  match op with
  | .poll => if s.inPoll then .next s else poll cfg s
  | .pollPulse => .next (if s.inPoll then s else startPoll s)
  | .wait => tick cfg s
  | .installHook h => if s.inPoll then .refused .hookInstallDuringPoll else .next (installHook h s)
  | .reset => .next (resetBlock cfg s)
  | .read _ => .next s

/-- The owner's operations that are left after this one. -/
def dropOwner (s : State) : State := { s with env := { s.env with owner := s.env.owner.tail } }

end Sys2Proof.Machine
end

