-- ==== Sys2Proof/Machine/Step.lean ====
section
/-!
DEFINITION. One step: the owner's next operation (43_response_hook.md R152), which for Poll is the whole poll as one atomic
step (40_framing.md R80, R91). With no operation of the owner pending the block makes a transition of its own (R89): none
in Idle. `stepWith` is the step for any record of parameters (00_scope.md R5), `step` that of this hardware, which runs
`exec` (`execWith .device` is `exec`).
-/

namespace Sys2Proof.Machine

def stepWith (cfg : Config) (s : State) : Host.Outcome State Fault Refusal :=
  match s.env.owner with
  | [] => tick cfg s
  | op :: _ => ownerStep cfg op (dropOwner s)

def step (s : State) : Host.Outcome State Fault Refusal := stepWith .device s

/-- `s` with the packet of an opcode-table word next on the transport's byte stream and the owner's poll that will receive
it next among its operations, the block being between polls (log 22). -/
def State.withFetchWord (s : State) (nbits w : Nat) : State :=
  { s with
    env := { s.env with
      owner := .poll :: s.env.owner
      rx := (tablePacket .device nbits w).map RxEvent.byte ++ s.env.rx }
    transient := { s.transient with seq := .idle, busy := false } }

end Sys2Proof.Machine
end

