-- ==== Sys2Proof/Safety.lean ====
section
/-!
DEFINITION. What counts as a safe run of the block, in the terms the claims use (10_state.md R18, R19, R22, R25, R29, R32).
-/

namespace Sys2Proof.Machine

/-- Between polls (10_state.md R22): no poll in progress. -/
def betweenPolls (s : State) : Prop := s.inPoll = false

/-- The invariant every step keeps. (1) The Raw Buffer's canonical form (10_state.md R18, R19). (2) The staging area never
overflows (R25). (3) SEQ is Idle unless a poll is in progress (R22; 20_memory.md R46). (4) In ChecksumRead the staged
payload has F_LEN bytes (R25). (5) The hook is asked only in ChecksumRead, when one is installed, and only for a tag that is
not native, after the checksum matched (43_response_hook.md R145). (6) A packet is accepted only with HANDLED
(10_state.md R27). -/
structure Inv (cfg : Config) (s : State) : Prop where
  raw : Memory.wf cfg s.retained = true
  stage : s.transient.stage.length ≤ cfg.lenMax
  idle : s.transient.busy = false → s.transient.seq = .idle
  staged : s.transient.seq = .checksumRead → s.transient.stage.length = s.transient.fLen.toNat
  asked : s.transient.hookReq = true → s.transient.seq = .checksumRead ∧ s.transient.crcOk = true ∧
    cfg.isNative s.transient.fType = false ∧ s.retained.hook ≠ none
  accepted : s.transient.seq = .dispatchedAccepted → s.transient.handled = true

/-- What an observer outside the block can see (10_state.md R32), beside the environment's inputs: the retained state and
the event trace. -/
def sameOutside (s t : State) : Prop := s.retained = t.retained ∧ s.trace = t.trace ∧ s.env = t.env

/-- The same, with SEQ: all that is defined between polls (10_state.md R28, R30). -/
def sameBetweenPolls (s t : State) : Prop := sameOutside s t ∧ s.inPoll = t.inPoll ∧ s.transient.seq = t.transient.seq

/-- The next state of an outcome, if it is one. -/
def nextState? {σ φ ρ : Type} : Host.Outcome σ φ ρ → Option σ
  | .next s => some s
  | .fault _ => none
  | .refused _ => none

/-- Two outcomes of the machine that no observer can tell apart. -/
def sameResult : StepResult → StepResult → Prop
  | .next s, .next t => sameBetweenPolls s t
  | .fault a, .fault b => a = b
  | .refused a, .refused b => a = b
  | _, _ => False

/-- The ACKs of a trace. -/
def sends (tr : List Event) : List (List Byte) := tr.filterMap fun
  | .send bs => some bs
  | _ => none

/-- The tags of the device errors of a trace. -/
def errs (tr : List Event) : List Byte := tr.filterMap fun
  | .err t => some t
  | _ => none

/-- The hook calls of a trace. -/
def hookCalls (tr : List Event) : List (Byte × Bool) := tr.filterMap fun
  | .hook t b => some (t, b)
  | _ => none

/-- The receive requests of a trace. -/
def recvs (tr : List Event) : List (Nat × RecvAnswer) := tr.filterMap fun
  | .recv n a => some (n, a)
  | _ => none

/-- How many bytes an answer delivered (20_memory.md R41). -/
def delivered : RecvAnswer → Nat
  | .ok bs => bs.length
  | .fail => 0

/-- How many bytes the block consumed in a trace (40_framing.md R92). -/
def bytesConsumed (tr : List Event) : Nat := ((recvs tr).map fun r => delivered r.2).sum

/-! ## What the spec says of a packet, written out from its own tables, for the claims to compare the model with -/

/-- 41_checksum.md R102: the checksum over TYPE, LEN and the payload, from seed 0x00. -/
def rightChecksum (t : Byte) (p : List Byte) : Byte := crc8 .device 0x00#8 ([t, BitVec.ofNat 8 p.length] ++ p)

/-- 30_encoding.md R60: the bytes of a packet on the stream. -/
def frameBytes (t : Byte) (p : List Byte) (c : Byte) : List Byte :=
  [0x01#8, t, BitVec.ofNat 8 p.length] ++ p ++ [c]

/-- Bytes as the receive port delivers them, one a transfer (20_memory.md R41). -/
def onPort (bs : List Byte) : List RxEvent := bs.map RxEvent.byte

/-- 30_encoding.md R68: the required length of the six fixed-width tags. -/
def requiredLen (t : Byte) : Option Nat :=
  if t = 0x0F#8 then some 1
  else if t = 0x0E#8 then some 2
  else if t = 0x0D#8 then some 2
  else if t = 0x10#8 then some 4
  else if t = 0x12#8 then some 4
  else if t = 0x11#8 then some 4
  else none

/-- 30_encoding.md R67, R69; 42_dispatch.md R121: all that an accepted packet does to the retained state. -/
def acceptedEffect (t : Byte) (p : List Byte) (r : Retained) : Retained :=
  if t = 0x0F#8 then { r with regI8 := p.getD 0 0, lastCmd := t }
  else if t = 0x0E#8 then { r with regI16 := p.getD 1 0 ++ p.getD 0 0, lastCmd := t }
  else if t = 0x0D#8 then { r with regU16 := p.getD 1 0 ++ p.getD 0 0, lastCmd := t }
  else if t = 0x10#8 then { r with regI32 := p.getD 3 0 ++ p.getD 2 0 ++ p.getD 1 0 ++ p.getD 0 0, lastCmd := t }
  else if t = 0x12#8 then { r with regU32 := p.getD 3 0 ++ p.getD 2 0 ++ p.getD 1 0 ++ p.getD 0 0, lastCmd := t }
  else if t = 0x11#8 then { r with regF32 := p.getD 3 0 ++ p.getD 2 0 ++ p.getD 1 0 ++ p.getD 0 0, lastCmd := t }
  else if t = 0x14#8 then
    { r with rawBuf := p.take 32, rawLen := BitVec.ofNat 6 (min p.length 32), lastCmd := t }
  else { r with lastCmd := t }

/-- The outcome `o` of a poll or an instruction run from `s` is a next state between polls, whose retained state is `r`,
whose trace has gained `evs`, whose environment is `env` and whose HANDLED is `handled`. -/
def endsWith (r : Retained) (evs : List Event) (env : Env) (handled : Bool) (s : State) (o : StepResult) : Prop :=
  ∃ t, o = .next t ∧ t.retained = r ∧ t.trace = s.trace ++ evs ∧ t.env = env ∧ t.transient.handled = handled ∧
    t.transient.seq = .idle ∧ betweenPolls t

/-- The same for a poll that no dispatch decided: the retained state is as it was, and nothing is said of HANDLED. -/
def endsQuietly (evs : List Event) (env : Env) (s : State) (o : StepResult) : Prop :=
  ∃ t, o = .next t ∧ t.retained = s.retained ∧ t.trace = s.trace ++ evs ∧ t.env = env ∧
    t.transient.seq = .idle ∧ betweenPolls t

/-- The owner's next operation is a poll, and the block is ready for it. -/
def pollReady (s : State) (ops : List OwnerOp) : Prop := betweenPolls s ∧ s.env.owner = .poll :: ops

/-- The step from `s` is a poll, and it accepts a packet with the tag `t`. -/
def stepAccepts (s : State) (t : Byte) : Prop :=
  s.env.owner.head? = some .poll ∧ pollOutcome .device (dropOwner s) = some (.accepted t)

/-- 42_dispatch.md R111 to R116, the shape of a fixed-width command's rule, the checksum having passed: with the required
length `w` the payload is stored, LAST_CMD written and the ACK sent; with any other length there is a device error with the
command's tag and nothing else. -/
def fixedWidthCommand (mk : List Byte → Byte → Instr) (tag : Byte) (w : Nat)
    (store : List Byte → Retained → Retained) : Prop :=
  ∀ (s : State) (p : List Byte), p.length ≤ 255 →
    (p.length = w →
      endsWith (store p s.retained) [.send [0x30#8]] s.env true s (exec (mk p (rightChecksum tag p)) s)) ∧
    (p.length ≠ w → endsWith s.retained [.err tag] s.env false s (exec (mk p (rightChecksum tag p)) s))

/-- 42_dispatch.md R122, the shape for one fixed-width type: the packet of the little-endian bytes of `v` with its right
checksum, polled from any state between polls, stores exactly `v`, records the tag and sends one ACK. -/
def decodesBack {n : Nat} (tag : Byte) (bytes : BitVec n → List Byte) (store : BitVec n → Retained → Retained) : Prop :=
  ∀ (v : BitVec n) (s : State) (ops : List OwnerOp) (more : List RxEvent), pollReady s ops →
    s.env.rx = onPort (frameBytes tag (bytes v) (rightChecksum tag (bytes v))) ++ more →
    ∃ t evs, step s = .next t ∧ t.retained = { store v s.retained with lastCmd := tag } ∧
      t.trace = s.trace ++ evs ∧ sends evs = [[0x30#8]] ∧ errs evs = [] ∧ betweenPolls t

end Sys2Proof.Machine
end

