-- ==== Sys2Proof/Certificates/Slice0/Obligations.lean ====
section
/-!
DEFINITION. The statements for the provers. Literal tags, lengths and codes are the spec's own numbers, not the model's
names for them, so that a wrong parameter makes a statement false.
-/

open Sys2Proof Sys2Proof.Machine

/-! ## Encoding (30_encoding.md) -/

/-- 30_encoding.md R60, R66, R67: no bit of a packet is dropped, whatever follows it on the stream. For every record of
parameters that fits the machine (00_scope.md R5); this hardware's is one (ThisHardwareHasTheTablesParameters). -/
def Obligations.DecodeOfEncodeIsTheInstruction : Prop :=
  ∀ (cfg : Config) (i : Instr) (rest : List Byte), cfg.valid = true → i.wellFormed cfg = true →
    decode cfg (encode cfg i ++ rest) = .ok (i, rest)

/-- 30_encoding.md R60, R66, R67: what is decoded is well-formed, and encoding it gives exactly the bytes it was read from:
every byte sequence is at most one packet. For every record of parameters that fits the machine (00_scope.md R5). -/
def Obligations.EncodeOfDecodeIsTheBytes : Prop :=
  ∀ (cfg : Config) (bs : List Byte) (i : Instr) (rest : List Byte), cfg.valid = true → decode cfg bs = .ok (i, rest) →
    i.wellFormed cfg = true ∧ encode cfg i ++ rest = bs

/-- 30_encoding.md R66: after "send variable" the decoder reads 2 bytes, takes the second as LEN, reads LEN bytes, reads 1
byte; after any other selector the packet is that one byte. -/
def Obligations.PacketEndsWhereLenSays : Prop :=
  (∀ (t l c : Byte) (p rest : List Byte), p.length = l.toNat →
    ∃ i, decode .device (0x01#8 :: t :: l :: p ++ c :: rest) = .ok (i, rest) ∧ i.tag? .device = some t ∧ i.payload = p) ∧
  (∀ (sel : Byte) (rest : List Byte), sel ≠ 0x01#8 → decode .device (sel :: rest) = .ok (.ignoreSelector sel, rest))

/-- 30_encoding.md R62, R71: no TYPE, LEN, payload or checksum is illegal; only a sequence that ends before its packet does
not decode. -/
def Obligations.OnlyShortSequencesFailToDecode : Prop :=
  ∀ (bs : List Byte), (∃ e, decode .device bs = .error e) ↔
    bs = [] ∨ (∃ r, bs = 0x01#8 :: r ∧ r.length < 2) ∨
      (∃ t l r, bs = 0x01#8 :: t :: l :: r ∧ r.length < l.toNat + 1)

/-- 30_encoding.md R75: the instruction decoded from a byte sequence belongs to the first row of the opcode table that the
24-bit key of its first three bytes matches. -/
def Obligations.DecodingFollowsTheOpcodeTable : Prop :=
  ∀ (sel t l : Byte) (body : List Byte) (i : Instr) (rest : List Byte),
    decode .device (sel :: t :: l :: body) = .ok (i, rest) →
      (selectRow .device (opcodeKey sel t l)).map OpcodeRow.mnemonic = some i.mnemonic

/-- Words written out from 30_encoding.md R60 and R67, one for each row of the opcode table, decode to the instruction they
stand for. -/
def Obligations.SpecWordsDecode : Prop :=
  decode .device [0x01#8, 0x0D#8, 0x02#8, 0x34#8, 0x12#8, 0xE5#8] = .ok (.setU16 [0x34#8, 0x12#8] 0xE5#8, []) ∧
  decode .device [0x01#8, 0x0E#8, 0x02#8, 0x34#8, 0x12#8, 0x6D#8] = .ok (.setI16 [0x34#8, 0x12#8] 0x6D#8, []) ∧
  decode .device [0x01#8, 0x0F#8, 0x01#8, 0x2A#8, 0xC6#8] = .ok (.setI8 [0x2A#8] 0xC6#8, []) ∧
  decode .device [0x01#8, 0x10#8, 0x04#8, 0x78#8, 0x56#8, 0x34#8, 0x12#8, 0x6D#8] =
    .ok (.setI32 [0x78#8, 0x56#8, 0x34#8, 0x12#8] 0x6D#8, []) ∧
  decode .device [0x01#8, 0x11#8, 0x04#8, 0x00#8, 0x00#8, 0x80#8, 0x3F#8, 0xA3#8] =
    .ok (.setF32 [0x00#8, 0x00#8, 0x80#8, 0x3F#8] 0xA3#8, []) ∧
  decode .device [0x01#8, 0x12#8, 0x04#8, 0xEF#8, 0xBE#8, 0xAD#8, 0xDE#8, 0x9E#8] =
    .ok (.setU32 [0xEF#8, 0xBE#8, 0xAD#8, 0xDE#8] 0x9E#8, []) ∧
  decode .device [0x01#8, 0x14#8, 0x03#8, 0x01#8, 0x02#8, 0x03#8, 0x33#8] =
    .ok (.setStruct [0x01#8, 0x02#8, 0x03#8] 0x33#8, []) ∧
  decode .device [0x01#8, 0x99#8, 0x00#8, 0x71#8] = .ok (.ext 0x99#8 [] 0x71#8, []) ∧
  decode .device [0x02#8, 0x55#8] = .ok (.ignoreSelector 0x02#8, [0x55#8])

/-! ## The checksum (41_checksum.md) -/

/-- 41_checksum.md R100: "Both give the same result for all 65536 pairs". The loop itself is the spec's reading D5 (log 6). -/
def Obligations.BothChecksumLoopsAgree : Prop := ∀ (c b : Byte), crc8Update .device c b = crc8UpdateBitSerial .device c b

/-- 41_checksum.md R101, R104: chaining, and the residue: a sequence followed by its checksum gives zero, and no other byte
does. -/
def Obligations.ChecksumChainsAndLeavesZeroResidue : Prop :=
  ∀ (seed : Byte) (s u : List Byte) (c : Byte),
    crc8 .device seed (s ++ u) = crc8 .device (crc8 .device seed s) u ∧
    (crc8 .device seed (s ++ [c]) = 0x00#8 ↔ c = crc8 .device seed s)

/-- 41_checksum.md R104: T[u ^ v] = T[u] ^ T[v] with T[v] = CRC8Update(0, v), and the step depends on c ^ b alone. -/
def Obligations.ChecksumStepIsLinear : Prop :=
  ∀ (u v : Byte), crc8Update .device 0x00#8 (u ^^^ v) = crc8Update .device 0x00#8 u ^^^ crc8Update .device 0x00#8 v ∧
    crc8Update .device u v = crc8Update .device 0x00#8 (u ^^^ v)

/-! ## The eight commands and the ignored selector (42_dispatch.md, 40_framing.md R82) -/

/-- 42_dispatch.md R111. -/
def Obligations.SetI8StoresTheByteOrRejects : Prop :=
  fixedWidthCommand .setI8 0x0F#8 1 fun p r => { r with regI8 := p.getD 0 0, lastCmd := 0x0F#8 }

/-- 42_dispatch.md R112. -/
def Obligations.SetI16StoresLittleEndianOrRejects : Prop :=
  fixedWidthCommand .setI16 0x0E#8 2 fun p r => { r with regI16 := p.getD 1 0 ++ p.getD 0 0, lastCmd := 0x0E#8 }

/-- 42_dispatch.md R113. -/
def Obligations.SetU16StoresLittleEndianOrRejects : Prop :=
  fixedWidthCommand .setU16 0x0D#8 2 fun p r => { r with regU16 := p.getD 1 0 ++ p.getD 0 0, lastCmd := 0x0D#8 }

/-- 42_dispatch.md R114. -/
def Obligations.SetI32StoresLittleEndianOrRejects : Prop :=
  fixedWidthCommand .setI32 0x10#8 4 fun p r =>
    { r with regI32 := p.getD 3 0 ++ p.getD 2 0 ++ p.getD 1 0 ++ p.getD 0 0, lastCmd := 0x10#8 }

/-- 42_dispatch.md R115. -/
def Obligations.SetU32StoresLittleEndianOrRejects : Prop :=
  fixedWidthCommand .setU32 0x12#8 4 fun p r =>
    { r with regU32 := p.getD 3 0 ++ p.getD 2 0 ++ p.getD 1 0 ++ p.getD 0 0, lastCmd := 0x12#8 }

/-- 42_dispatch.md R116: the 32 assembled bits are the pattern. -/
def Obligations.SetF32StoresThePatternOrRejects : Prop :=
  fixedWidthCommand .setF32 0x11#8 4 fun p r =>
    { r with regF32 := p.getD 3 0 ++ p.getD 2 0 ++ p.getD 1 0 ++ p.getD 0 0, lastCmd := 0x11#8 }

/-- 42_dispatch.md R117: any length is accepted, the first min(LEN, 32) bytes are stored, RAW_LEN is min(LEN, 32). The last
clause says it byte by byte: index i of the Raw Buffer holds payload byte i below 32 and nothing else is stored. -/
def Obligations.SetStructStoresThePrefix : Prop :=
  ∀ (s : State) (p : List Byte), p.length ≤ 255 →
    endsWith
      { s.retained with rawBuf := p.take 32, rawLen := BitVec.ofNat 6 (min p.length 32), lastCmd := 0x14#8 }
      [.send [0x30#8]] s.env true s (exec (.setStruct p (rightChecksum 0x14#8 p)) s) ∧
    ∀ (t : State), exec (.setStruct p (rightChecksum 0x14#8 p)) s = .next t →
      t.retained.rawLen.toNat = min p.length 32 ∧ t.retained.rawBuf.length = min p.length 32 ∧
      ∀ i, rawByte i t.retained = if i < 32 then p[i]? else none

/-- 42_dispatch.md R118, the checksum having passed: without a hook, a device error with the tag; with one, its answer
decides: true commits LAST_CMD alone and sends the ACK, false is a device error with the tag. Between the call and the
answer the hook may read the ports (`reads`); the payload plays no part. With a wrong checksum the hook is not asked, and
for a native tag it never is. -/
def Obligations.ExtAsksTheHook : Prop :=
  (∀ (s : State) (t : Byte) (p : List Byte), p.length ≤ 255 →
    t ∉ [0x0D#8, 0x0E#8, 0x0F#8, 0x10#8, 0x11#8, 0x12#8, 0x14#8] →
    (s.retained.hook = none →
      endsWith s.retained [.err t] s.env false s (exec (.ext t p (rightChecksum t p)) s)) ∧
    (∀ (h : HookId) (ports : List Port) (rest : List HookEvent) (b : Bool), s.retained.hook = some h →
      s.env.hookIn = ports.map HookEvent.reads ++ .answers b :: rest →
      (b = true →
        endsWith { s.retained with lastCmd := t } [.hook t true, .send [0x30#8]] { s.env with hookIn := rest } true s
          (exec (.ext t p (rightChecksum t p)) s)) ∧
      (b = false →
        endsWith s.retained [.hook t false, .err t] { s.env with hookIn := rest } false s
          (exec (.ext t p (rightChecksum t p)) s))) ∧
    (∀ (c : Byte), c ≠ rightChecksum t p → endsWith s.retained [.err t] s.env false s (exec (.ext t p c) s))) ∧
  (∀ (s u : State) (t c : Byte) (p : List Byte), t ∈ [0x0D#8, 0x0E#8, 0x0F#8, 0x10#8, 0x11#8, 0x12#8, 0x14#8] →
    exec (frameInstr .device t p c) s = .next u →
    u.env.hookIn = s.env.hookIn ∧ ∃ evs, u.trace = s.trace ++ evs ∧ hookCalls evs = [])

/-- 40_framing.md R82, as the spec decides it (D4, log 5, the spec's choice and not the source's): a foreign selector is
consumed and nothing else happens. The poll takes exactly that one byte. -/
def Obligations.ForeignSelectorIsIgnored : Prop :=
  (∀ (s : State) (sel : Byte), sel ≠ 0x01#8 → endsQuietly [] s.env s (exec (.ignoreSelector sel) s)) ∧
  (∀ (s : State) (ops : List OwnerOp) (sel : Byte) (more : List RxEvent), sel ≠ 0x01#8 → pollReady s ops →
    s.env.rx = .byte sel :: more →
    endsQuietly [.recv 1 (.ok [sel])] { s.env with owner := ops, rx := more } s (step s))

/-- 41_checksum.md R103: the packet passes when the two are equal, all 8 bits (CRC_OK says which); a mismatch invalidates the
whole packet, whatever its tag and its length: no write, no hook call, no ACK, one device error with the packet's tag, SEQ <-
Idle. -/
def Obligations.ChecksumMismatchRejectsEveryCommand : Prop :=
  (∀ (s : State) (t c : Byte) (p : List Byte), p.length ≤ 255 → c ≠ rightChecksum t p →
    endsWith s.retained [.err t] s.env false s (exec (frameInstr .device t p c) s)) ∧
  (∀ (s u : State) (t c : Byte) (p : List Byte), exec (frameInstr .device t p c) s = .next u →
    (u.transient.crcOk = true ↔ c = rightChecksum t p) ∧ u.transient.crcRun = rightChecksum t p)

/-- 42_dispatch.md R120: at most one of the seven register enables is on; HANDLED = ACK = we_last; and for every packet that
reaches the dispatcher the mux leaves in the retained state exactly what the command's own rule does. `k` is the mux's hook
line, "a hook is installed and answered true": low with no hook installed, the hook's answer with one, and of no effect for a
native tag, whatever the hook would do. -/
def Obligations.RegisterStoreMuxAgreesWithTheCommands : Prop :=
  ∀ (s : State) (t c : Byte) (p : List Byte) (k : Bool), p.length ≤ 255 →
    let we := writeEnables .device (c == rightChecksum t p) t (BitVec.ofNat 8 p.length) k
    ([we.weI8, we.weI16, we.weU16, we.weI32, we.weU32, we.weF32, we.weRaw].filter id).length ≤ 1 ∧
    we.ack = we.weLast ∧
    (t ∈ [0x0D#8, 0x0E#8, 0x0F#8, 0x10#8, 0x11#8, 0x12#8, 0x14#8] ∨
      (s.retained.hook = none ∧ k = false) ∨
      (s.retained.hook ≠ none ∧ ∃ (ports : List Port) (rest : List HookEvent),
        s.env.hookIn = ports.map HookEvent.reads ++ .answers k :: rest) →
      ∃ u evs, exec (frameInstr .device t p c) s = .next u ∧ u.retained = muxStore .device we t p s.retained ∧
        u.transient.handled = we.weLast ∧ u.trace = s.trace ++ evs ∧ sends evs = if we.ack then [[0x30#8]] else [])

/-- 42_dispatch.md R110, R118: every instruction answers a next state from every state, but an EXT with its right checksum
whose installed hook has not answered or calls back into the block. How the model stops there is its own choice: a hook that
has not answered is a stuck state (log 3; 43_response_hook.md R147, 70_reset_and_hazards.md R208), a hook that re-enters is
refused by name (log 4; 70 R202, 93 U5). -/
def Obligations.OnlyTheHookCanStopAnInstruction : Prop :=
  ∀ (i : Instr) (s : State), (∃ t, exec i s = .next t) ∨
    ∃ tag p, i = .ext tag p (rightChecksum tag p) ∧ s.retained.hook ≠ none ∧
      ((exec i s = .fault .hookUnanswered ∧ ∃ ports : List Port, s.env.hookIn = ports.map HookEvent.reads) ∨
       ∃ (r : Reentry) (ports : List Port) (rest : List HookEvent), exec i s = .refused (.hookReentry r) ∧
         s.env.hookIn = ports.map HookEvent.reads ++ .reenters r :: rest)

/-- 10_state.md R27: the one-bit values after a frame's execution. CRC_OK is the comparison of CRC_RUN with the checksum byte
that was sent; LEN_OK, once that has passed, the exactness of the length for the six fixed-width tags; HANDLED alone decides
the ACK and the write of LAST_CMD. rx_fail is the failure flag of the last request. -/
def Obligations.FlagsSayWhatThePollFound : Prop :=
  (∀ (s u : State) (t c : Byte) (p : List Byte), exec (frameInstr .device t p c) s = .next u →
    u.transient.crcRun = rightChecksum t p ∧ (u.transient.crcOk = true ↔ c = rightChecksum t p) ∧
    (c = rightChecksum t p → ∀ w, requiredLen t = some w → (u.transient.lenOk = true ↔ p.length = w)) ∧
    ∃ evs, u.trace = s.trace ++ evs ∧
      (u.transient.handled = true → sends evs = [[0x30#8]] ∧ u.retained.lastCmd = t) ∧
      (u.transient.handled = false → sends evs = [] ∧ u.retained = s.retained)) ∧
  (∀ (s u : State) (n : Nat) (a : RecvAnswer), recv n s = some (a, u) →
    (u.transient.rxFail = true ↔ a = .fail) ∧ u.retained = s.retained ∧ u.trace = s.trace ++ [.recv n a])

/-- The frame of every instruction: the latches, the staging area, IDX and rx_fail are the receiver's (10_state.md R24, R25),
and no instruction takes a byte from the transport or an operation from the owner; HOOK is the owner's (R21); the block is
between polls afterwards; the trace only grows. -/
def Obligations.InstructionsLeaveTheReceiverAlone : Prop :=
  ∀ (i : Instr) (s t : State), exec i s = .next t →
    t.transient.fSel = s.transient.fSel ∧ t.transient.fType = s.transient.fType ∧ t.transient.fLen = s.transient.fLen ∧
    t.transient.fChk = s.transient.fChk ∧ t.transient.stage = s.transient.stage ∧ t.transient.idx = s.transient.idx ∧
    t.transient.rxFail = s.transient.rxFail ∧ t.env.rx = s.env.rx ∧ t.env.owner = s.env.owner ∧
    t.retained.hook = s.retained.hook ∧ t.transient.seq = .idle ∧ betweenPolls t ∧ s.trace <+: t.trace

/-! ## The poll and the Packet Receiver (40_framing.md) -/

/-- 40_framing.md R80: when the bytes that the transport offers decode to an instruction, a step that polls is that
instruction's exec, at the state the receiver leaves: the bytes consumed, the receive events appended, the latches and the
staging area holding the packet, the retained state untouched. -/
def Obligations.StepRunsTheDecodedInstruction : Prop :=
  ∀ (s : State) (ops : List OwnerOp) (bs left : List Byte) (i : Instr) (more : List RxEvent), pollReady s ops →
    decode .device bs = .ok (i, left) → s.env.rx = onPort bs ++ more →
    ∃ s1, step s = exec i s1 ∧ s1.retained = s.retained ∧ s1.trace = s.trace ++ recvEvents .device i ∧
      s1.env = { owner := ops, rx := onPort left ++ more, hookIn := s.env.hookIn } ∧
      some s1.transient.fSel = bs.head? ∧
      ∀ t, i.tag? .device = some t → s1.transient.fType = t ∧ s1.transient.fLen = BitVec.ofNat 8 i.payload.length ∧
        s1.transient.stage = i.payload

/-- A word of the opcode table, placed where a step fetches its next instruction, is what the next step runs. -/
def Obligations.TableWordIsWhatTheNextStepRuns : Prop :=
  ∀ (s : State) (nbits w : Nat), ∃ i s1, decodeTableWord nbits w = some i ∧
    step (s.withFetchWord nbits w) = exec i s1 ∧ s1.retained = s.retained ∧ s1.env = s.env ∧
    s1.trace = s.trace ++ recvEvents .device i

/-- 20_memory.md R41, with the spec's decision D3 (log 13): a request is all or nothing. -/
def Obligations.RecvIsAllOrNothing : Prop :=
  ∀ (n : Nat) (rx : List RxEvent),
    (∀ bs rest, takeRx n rx = .answered (.ok bs) rest ↔ bs.length = n ∧ rx = onPort bs ++ rest) ∧
    (∀ rest, takeRx n rx = .answered .fail rest ↔ ∃ pre, pre.length < n ∧ rx = onPort pre ++ .fail :: rest) ∧
    (takeRx n rx = .unanswered ↔ ∃ pre, pre.length < n ∧ rx = onPort pre)

/-- 40_framing.md R81 (D22): a failed selector read is the normal idle case: no error, no ACK, no state change. -/
def Obligations.NoDataIsNoError : Prop :=
  ∀ (s : State) (ops : List OwnerOp) (more : List RxEvent), pollReady s ops → s.env.rx = .fail :: more →
    endsQuietly [.recv 1 .fail] { s.env with owner := ops, rx := more } s (step s) ∧
    pollOutcome .device (dropOwner s) = some .noFrame

/-- 60_exceptions.md R161: a header read that fails after a "send variable" selector is a device error with tag 0x00. -/
def Obligations.HeaderFailureHasTagZero : Prop :=
  ∀ (s : State) (ops : List OwnerOp) (rx rest : List RxEvent), pollReady s ops → s.env.rx = .byte 0x01#8 :: rx →
    takeRx 2 rx = .answered .fail rest →
    endsWith s.retained [.recv 1 (.ok [0x01#8]), .recv 2 .fail, .err 0x00#8] { s.env with owner := ops, rx := rest } false s
      (step s)

/-- 60_exceptions.md R163: a payload read that fails is a device error tagged with the already-known type, for every type. -/
def Obligations.PayloadFailureHasThePacketsTag : Prop :=
  ∀ (s : State) (ops : List OwnerOp) (t l : Byte) (rx rest : List RxEvent), pollReady s ops →
    s.env.rx = onPort [0x01#8, t, l] ++ rx → takeRx l.toNat rx = .answered .fail rest →
    endsWith s.retained [.recv 1 (.ok [0x01#8]), .recv 2 (.ok [t, l]), .recv l.toNat .fail, .err t]
      { s.env with owner := ops, rx := rest } false s (step s)

/-- 60_exceptions.md R164, with the receive events of 40_framing.md R85, R86 and R88: a checksum-byte read that fails is a
device error tagged with the type; the dispatcher is not run. That no payload request precedes it when LEN is 0 is the spec's
decision D16 (log 14), not the source's. -/
def Obligations.ChecksumByteFailureHasThePacketsTag : Prop :=
  ∀ (s : State) (ops : List OwnerOp) (t : Byte) (p : List Byte) (more : List RxEvent), pollReady s ops → p.length ≤ 255 →
    s.env.rx = onPort ([0x01#8, t, BitVec.ofNat 8 p.length] ++ p) ++ .fail :: more →
    endsWith s.retained
      ([.recv 1 (.ok [0x01#8]), .recv 2 (.ok [t, BitVec.ofNat 8 p.length])] ++
        (if p = [] then [] else [.recv p.length (.ok p)]) ++ [.recv 1 .fail, .err t])
      { s.env with owner := ops, rx := more } false s (step s)

/-- 40_framing.md R84, with the tag of the spec's decision D6 (log 12): a LEN above the staging capacity is rejected with the
packet's tag before a payload byte is read, for every record of parameters; with the capacity of this hardware no LEN is. -/
def Obligations.CapacityRejectHasThePacketsTag : Prop :=
  (∀ (cfg : Config) (s : State) (t l : Byte) (more : List RxEvent), s.env.rx = onPort [t, l] ++ more →
    cfg.stageCap < l.toNat →
    ∃ u, readHeader cfg s = .ended (.readFailure t) u ∧ u.retained = s.retained ∧ u.env = { s.env with rx := more } ∧
      u.trace = s.trace ++ [.recv 2 (.ok [t, l]), .err t] ∧ betweenPolls u) ∧
  (∀ (s u : State) (o : PollOutcome), readHeader .device s = .ended o u → o = .readFailure 0x00#8)

/-- 40_framing.md R88, the whole table: the outcome of a poll that ends, the events it appends in order, and what it does to
the retained state. The row of a foreign selector is the spec's decision D4 (log 5). -/
def Obligations.OutcomeDeterminesEventsAndState : Prop :=
  ∀ (s t : State), poll .device s = .next t → ∃ o evs, pollOutcome .device s = some o ∧ t.trace = s.trace ++ evs ∧
    match o with
    | .noFrame => evs = [.recv 1 .fail] ∧ t.retained = s.retained
    | .otherSelector => ∃ b, b ≠ 0x01#8 ∧ evs = [.recv 1 (.ok [b])] ∧ t.retained = s.retained
    | .readFailure tag => t.retained = s.retained ∧
        ((tag = 0x00#8 ∧ evs = [.recv 1 (.ok [0x01#8]), .recv 2 .fail, .err 0x00#8]) ∨
         (∃ l : Byte, l ≠ 0 ∧
           evs = [.recv 1 (.ok [0x01#8]), .recv 2 (.ok [tag, l]), .recv l.toNat .fail, .err tag]) ∨
         (∃ p : List Byte, p.length ≤ 255 ∧
           evs = [.recv 1 (.ok [0x01#8]), .recv 2 (.ok [tag, BitVec.ofNat 8 p.length])] ++
             (if p = [] then [] else [.recv p.length (.ok p)]) ++ [.recv 1 .fail, .err tag]))
    | .rejected tag => t.retained = s.retained ∧ ∃ p c hk, p.length ≤ 255 ∧ (hk = [] ∨ hk = [.hook tag false]) ∧
        evs = frameEvents .device tag p c ++ hk ++ [.err tag]
    | .accepted tag => ∃ p c hk, p.length ≤ 255 ∧ (hk = [] ∨ hk = [.hook tag true]) ∧
        evs = frameEvents .device tag p c ++ hk ++ [.send [0x30#8]] ∧ c = rightChecksum tag p ∧
        t.retained = acceptedEffect tag p s.retained

/-- 43_response_hook.md R143: the ACK exactly when the outcome is Accepted, a device error exactly when it is ReadFailure or
Rejected, neither for NoFrame and OtherSelector; never both, never two of either. -/
def Obligations.AckExactlyWhenAccepted : Prop :=
  ∀ (s t : State), poll .device s = .next t → ∃ o evs, pollOutcome .device s = some o ∧ t.trace = s.trace ++ evs ∧
    match o with
    | .noFrame => sends evs = [] ∧ errs evs = []
    | .otherSelector => sends evs = [] ∧ errs evs = []
    | .readFailure tag => sends evs = [] ∧ errs evs = [tag]
    | .rejected tag => sends evs = [] ∧ errs evs = [tag]
    | .accepted _ => sends evs = [[0x30#8]] ∧ errs evs = []

/-- 42_dispatch.md R121: LAST_CMD becomes the tag of the packet exactly on the polls whose outcome is Accepted, and no other
poll writes it. -/
def Obligations.LastCmdRecordsTheAcceptedTag : Prop :=
  ∀ (s t : State) (o : PollOutcome), poll .device s = .next t → pollOutcome .device s = some o →
    match o with
    | .accepted tag => t.retained.lastCmd = tag ∧ t.transient.handled = true
    | _ => t.retained.lastCmd = s.retained.lastCmd

/-- 40_framing.md R92: how many transport bytes a poll consumes, by its outcome. -/
def Obligations.BytesConsumedByOutcome : Prop :=
  ∀ (s t : State), poll .device s = .next t → ∃ o evs, pollOutcome .device s = some o ∧ t.trace = s.trace ++ evs ∧
    match o with
    | .noFrame => bytesConsumed evs = 0
    | .otherSelector => bytesConsumed evs = 1
    | .readFailure _ => bytesConsumed evs = 1 ∨ bytesConsumed evs = 3 ∨ bytesConsumed evs = 3 + t.transient.fLen.toNat
    | .rejected _ => bytesConsumed evs = 4 + t.transient.fLen.toNat
    | .accepted _ => bytesConsumed evs = 4 + t.transient.fLen.toNat

/-- 10_state.md R29, the four invariants: (a) nothing is mutated unless the packet's checksum matches and, for a fixed-width
tag, its length is exact; (b) the Raw Buffer never exceeds 32 bytes; (c) exactly one packet is processed: the poll has one
outcome, and what an accepted one consumed is that packet and no more; (d) mutation and ACK happen together or not at all. -/
def Obligations.MutationOnlyWithAValidPacketAndItsAck : Prop :=
  ∀ (s t : State) (ops : List OwnerOp), Inv .device s → pollReady s ops → step s = .next t →
    t.retained.rawLen.toNat ≤ 32 ∧ t.retained.rawBuf.length = t.retained.rawLen.toNat ∧
    ∃ o evs, pollOutcome .device (dropOwner s) = some o ∧ t.trace = s.trace ++ evs ∧
      (((∀ tag, o ≠ .accepted tag) ∧ t.retained = s.retained ∧ sends evs = []) ∨
       (∃ tag p, o = .accepted tag ∧ p.length ≤ 255 ∧ (∀ w, requiredLen tag = some w → p.length = w) ∧
          s.env.rx = onPort (frameBytes tag p (rightChecksum tag p)) ++ t.env.rx ∧
          t.retained = acceptedEffect tag p s.retained ∧ sends evs = [[0x30#8]]))

/-- 42_dispatch.md R122: decoding inverts encoding for every value of every fixed-width type, over the wire. -/
def Obligations.DecodingInvertsEncodingForEveryType : Prop :=
  decodesBack (n := 8) 0x0F#8 (fun v => [v]) (fun v r => { r with regI8 := v }) ∧
  decodesBack (n := 16) 0x0E#8 (fun v => [v.extractLsb' 0 8, v.extractLsb' 8 8]) (fun v r => { r with regI16 := v }) ∧
  decodesBack (n := 16) 0x0D#8 (fun v => [v.extractLsb' 0 8, v.extractLsb' 8 8]) (fun v r => { r with regU16 := v }) ∧
  decodesBack (n := 32) 0x10#8
    (fun v => [v.extractLsb' 0 8, v.extractLsb' 8 8, v.extractLsb' 16 8, v.extractLsb' 24 8])
    (fun v r => { r with regI32 := v }) ∧
  decodesBack (n := 32) 0x12#8
    (fun v => [v.extractLsb' 0 8, v.extractLsb' 8 8, v.extractLsb' 16 8, v.extractLsb' 24 8])
    (fun v r => { r with regU32 := v }) ∧
  decodesBack (n := 32) 0x11#8
    (fun v => [v.extractLsb' 0 8, v.extractLsb' 8 8, v.extractLsb' 16 8, v.extractLsb' 24 8])
    (fun v r => { r with regF32 := v })

/-- 40_framing.md R90, 10_state.md R22: a poll runs to completion: the block is between polls again, in Idle. -/
def Obligations.PollRunsToCompletion : Prop :=
  ∀ (s t : State), poll .device s = .next t → betweenPolls t ∧ t.transient.seq = .idle ∧ t.transient.hookReq = false

/-- 70_reset_and_hazards.md R208: a poll makes at most four receive requests and at most one hook call, and it ends provided
the transport answers (259 port events are enough for any packet) and the hook, if called, answers. -/
def Obligations.PollIsBoundedAndEndsWhenAnswered : Prop :=
  (∀ (s t : State), poll .device s = .next t → ∃ evs, t.trace = s.trace ++ evs ∧ (recvs evs).length ≤ 4 ∧
    (hookCalls evs).length ≤ 1) ∧
  (∀ (s : State) (ports : List Port) (b : Bool) (rest : List HookEvent), 259 ≤ s.env.rx.length →
    (s.retained.hook ≠ none → s.env.hookIn = ports.map HookEvent.reads ++ .answers b :: rest) →
    ∃ t, poll .device s = .next t)

/-! ## Waiting and re-entry (43_response_hook.md R147, 70_reset_and_hazards.md) -/

/-- 43_response_hook.md R147 (93 U6, log 3): while an installed hook has not answered a valid packet of its own, the block
does not leave the dispatch step: the model is stuck there, by name, and never answers a timeout, an error or a false
answer. -/
def Obligations.UnansweredHookHangsTheBlock : Prop :=
  ∀ (s : State) (t : Byte) (p : List Byte) (h : HookId) (ports : List Port), s.retained.hook = some h →
    s.env.hookIn = ports.map HookEvent.reads → exec (.ext t p (rightChecksum t p)) s = .fault .hookUnanswered

/-- 70_reset_and_hazards.md R202 (93 U5, log 4): a hook that calls back into the block while it runs is refused by name. -/
def Obligations.HookReentryIsRefused : Prop :=
  ∀ (s : State) (t : Byte) (p : List Byte) (h : HookId) (ports : List Port) (r : Reentry) (rest : List HookEvent),
    s.retained.hook = some h → s.env.hookIn = ports.map HookEvent.reads ++ .reenters r :: rest →
    exec (.ext t p (rightChecksum t p)) s = .refused (.hookReentry r)

/-- 70_reset_and_hazards.md R208 (93 U7, log 2): a poll is stuck, by name, exactly when a request of its own is unanswered:
the port offers nothing more and no whole packet. -/
def Obligations.UnansweredRequestHangsThePoll : Prop :=
  ∀ (s : State), poll .device s = .fault .transportUnanswered ↔
    ∃ bs e, s.env.rx = onPort bs ∧ decode .device bs = .error e

/-! ## The owner (43_response_hook.md R148, R149; 70_reset_and_hazards.md) -/

/-- 43_response_hook.md R149: the owner's reads change nothing, in any state, and return the committed values. -/
def Obligations.ReadsChangeNothing : Prop :=
  ∀ (s : State) (p : Port) (ops : List OwnerOp), s.env.owner = .read p :: ops →
    step s = .next { s with env := { s.env with owner := ops } } ∧
    [readPort .regI8 s.retained, readPort .regI16 s.retained, readPort .regU16 s.retained, readPort .regI32 s.retained,
      readPort .regU32 s.retained, readPort .regF32 s.retained, readPort .rawBuf s.retained, readPort .rawLen s.retained,
      readPort .lastCmd s.retained] =
    [.byte s.retained.regI8, .half s.retained.regI16, .half s.retained.regU16, .word s.retained.regI32,
      .word s.retained.regU32, .word s.retained.regF32, .bytes s.retained.rawBuf, .len s.retained.rawLen,
      .byte s.retained.lastCmd]

/-- 00_scope.md R7, 10_state.md R11 to R15: a signed register reads as its bits, or as them less 2^N when the top bit is 1, and
an unsigned one as its bits. That this reading is two's complement is outside knowledge (log 21). -/
def Obligations.OwnerReadsTheValueOfTheBits : Prop :=
  ∀ (r : Retained),
    (-128 ≤ readI8 r ∧ readI8 r ≤ 127 ∧ (readI8 r = r.regI8.toNat ∨ readI8 r = r.regI8.toNat - 2 ^ 8)) ∧
    (-32768 ≤ readI16 r ∧ readI16 r ≤ 32767 ∧ (readI16 r = r.regI16.toNat ∨ readI16 r = r.regI16.toNat - 2 ^ 16)) ∧
    (-2147483648 ≤ readI32 r ∧ readI32 r ≤ 2147483647 ∧
      (readI32 r = r.regI32.toNat ∨ readI32 r = r.regI32.toNat - 2 ^ 32)) ∧
    readU16 r = r.regU16.toNat ∧ readU32 r = r.regU32.toNat

/-- 43_response_hook.md R148, 70 R203, with the spec's decision D12 (log 17): between polls InstallHook writes HOOK and
nothing else, replacing an earlier one; during a poll it is refused by name. -/
def Obligations.InstallHookOnlyBetweenPolls : Prop :=
  ∀ (s : State) (h : HookId) (ops : List OwnerOp), s.env.owner = .installHook h :: ops →
    (betweenPolls s → step s = .next { s with
      retained := { s.retained with hook := some h }, env := { s.env with owner := ops } }) ∧
    (¬ betweenPolls s → step s = .refused .hookInstallDuringPoll)

/-- 70_reset_and_hazards.md R191, for this model: nothing is kept through reset, in whatever state it comes, a poll in progress
included: two states with the same environment are the same after it, and the six Typed Registers are zero. Of the retained
state this is R191 and R30; the rest is not the source's: that the transient state too is the same is the model's choice (R30
leaves it unspecified; log 8), that REG_F32 is +0.0 is the spec's decision D9 (log 7), and that a reset lands inside a poll at
once, the environment going on, is its decision D23 (log 19). -/
def Obligations.ResetKeepsNothing : Prop :=
  ∀ (s s' : State) (ops : List OwnerOp), s.env.owner = .reset :: ops → s'.env = s.env →
    step s = step s' ∧ ∃ t, step s = .next t ∧ t.retained.regI8 = 0 ∧ t.retained.regI16 = 0 ∧ t.retained.regU16 = 0 ∧
      t.retained.regI32 = 0 ∧ t.retained.regU32 = 0 ∧ t.retained.regF32 = 0 ∧ t.env = { s.env with owner := ops }

/-- 70_reset_and_hazards.md R193 (D23, log 19) and 10_state.md R30 (D9, log 7): reset takes effect at once in any sequencer
state; the packet in progress is abandoned with no error and no ACK. The values of RAW_LEN, RAW_BUF, LAST_CMD, HOOK, SEQ and
the trace are the spec's decisions, not the source's. -/
def Obligations.ResetAbandonsThePacketInProgress : Prop :=
  ∀ (s : State) (ops : List OwnerOp), s.env.owner = .reset :: ops →
    ∃ t, step s = .next t ∧ t.retained.rawLen = 0 ∧ t.retained.rawBuf = [] ∧ t.retained.lastCmd = 0x00#8 ∧
      t.retained.hook = none ∧ t.transient.seq = .idle ∧ betweenPolls t ∧ t.trace = [] ∧ t.env.rx = s.env.rx

/-- 70_reset_and_hazards.md R200, 20_memory.md R46 (D19, log 18): a poll, or its pulse, while a poll is in progress is ignored. -/
def Obligations.PollWhileBusyIsIgnored : Prop :=
  ∀ (s : State) (op : OwnerOp) (ops : List OwnerOp), s.env.owner = op :: ops → op = .poll ∨ op = .pollPulse →
    ¬ betweenPolls s → step s = .next { s with env := { s.env with owner := ops } }

/-- 10_state.md R11 to R20, 60_exceptions.md R175: from a state between polls, each register changes only in a step that is a
poll and accepts a packet with the tag of its own command, or by reset; LAST_CMD only in a step that is a poll and accepts a
packet, whose tag it takes, or by reset; and HOOK only by the owner's InstallHook or by reset. -/
def Obligations.EachRegisterHasOneWriter : Prop :=
  ∀ (s t : State), betweenPolls s → step s = .next t → s.env.owner.head? ≠ some .reset →
    (t.retained.regI8 ≠ s.retained.regI8 → stepAccepts s 0x0F#8) ∧
    (t.retained.regI16 ≠ s.retained.regI16 → stepAccepts s 0x0E#8) ∧
    (t.retained.regU16 ≠ s.retained.regU16 → stepAccepts s 0x0D#8) ∧
    (t.retained.regI32 ≠ s.retained.regI32 → stepAccepts s 0x10#8) ∧
    (t.retained.regU32 ≠ s.retained.regU32 → stepAccepts s 0x12#8) ∧
    (t.retained.regF32 ≠ s.retained.regF32 → stepAccepts s 0x11#8) ∧
    (t.retained.rawBuf ≠ s.retained.rawBuf ∨ t.retained.rawLen ≠ s.retained.rawLen → stepAccepts s 0x14#8) ∧
    (t.retained.lastCmd ≠ s.retained.lastCmd → stepAccepts s t.retained.lastCmd) ∧
    (t.retained.hook ≠ s.retained.hook → ∃ h, s.env.owner.head? = some (.installHook h))

/-! ## What cannot be seen (10_state.md R28, 42_dispatch.md R110) -/

/-- 10_state.md R28: the transient state is hidden. Two states between polls that differ in it alone cannot be told apart by
any step, nor by the outcome of a poll: no later packet reads what an earlier one left there. -/
def Obligations.TransientStateIsHidden : Prop :=
  ∀ (s s' : State), betweenPolls s → betweenPolls s' → sameOutside s s' →
    sameResult (step s) (step s') ∧ pollOutcome .device s = pollOutcome .device s'

/-- 42_dispatch.md R110, 90_conflicts.md C4: the dispatcher's decision depends on the frame, on whether a hook is installed and
on its answer, never on the registers: with other registers the events and the outcome of a poll are the same. -/
def Obligations.DecisionIgnoresTheRegisters : Prop :=
  ∀ (s : State) (r : Retained), (r.hook = none ↔ s.retained.hook = none) →
    pollOutcome .device { s with retained := r } = pollOutcome .device s ∧
    ∀ t, poll .device s = .next t →
      ∃ t', poll .device { s with retained := r } = .next t' ∧ t'.trace = t.trace ∧ t'.env = t.env

/-! ## The sequencer (40_framing.md R89, R91) and the invariant -/

/-- 40_framing.md R91: running the sequencer from a poll in Idle until it is Idle again gives the events, the state change and
the end that the poll gives, stuck and refused polls included; six transitions are enough. That a step makes these
transitions is StepIsATransitionOrThePulse. -/
def Obligations.SequencerRefinesThePoll : Prop :=
  ∀ (s : State), betweenPolls s → s.transient.hookReq = false →
    sameResult (tickUntilIdle .device 6 (startPoll s)) (poll .device s)

/-- 70_reset_and_hazards.md R204: at every sample during a poll the ports show the whole state from before the commit or the
whole state after it: a transition of the sequencer that changes the retained state is the one into DispatchedAccepted, and
it makes the whole change of the packet that is latched. -/
def Obligations.ReadsDuringAPollSeeWholeCommits : Prop :=
  ∀ (s t : State), tick .device s = .next t →
    t.retained = s.retained ∨
      (s.transient.seq = .checksumRead ∧ t.transient.seq = .dispatchedAccepted ∧
        t.retained = acceptedEffect s.transient.fType s.transient.stage s.retained)

/-- 40_framing.md R89, the rows before the dispatch: from each state, the condition, the action and the next state. -/
def Obligations.SequencerReadsInOrder : Prop :=
  ∀ (s t : State), tick .device s = .next t →
    (s.transient.seq = .idle → s.transient.busy = false → t = s) ∧
    (s.transient.seq = .idle → s.transient.busy = true → t.retained = s.retained ∧
      ((t.transient.seq = .idle ∧ t.trace = s.trace ++ [.recv 1 .fail]) ∨
       (∃ b, b ≠ 0x01#8 ∧ t.transient.fSel = b ∧ t.transient.seq = .idle ∧ t.trace = s.trace ++ [.recv 1 (.ok [b])]) ∨
       (t.transient.fSel = 0x01#8 ∧ t.transient.seq = .headerRead ∧ t.trace = s.trace ++ [.recv 1 (.ok [0x01#8])]))) ∧
    (s.transient.seq = .headerRead → t.retained = s.retained ∧
      ((t.transient.seq = .idle ∧ t.trace = s.trace ++ [.recv 2 .fail, .err 0x00#8]) ∨
       (t.transient.seq = .payloadRead ∧ t.transient.idx = 0 ∧
        t.trace = s.trace ++ [.recv 2 (.ok [t.transient.fType, t.transient.fLen])]))) ∧
    (s.transient.seq = .payloadRead → t.retained = s.retained ∧
      ((s.transient.fLen = 0 ∧ t.transient.seq = .checksumRead ∧ t.transient.stage = [] ∧ t.trace = s.trace) ∨
       (s.transient.fLen ≠ 0 ∧ t.transient.seq = .idle ∧
        t.trace = s.trace ++ [.recv s.transient.fLen.toNat .fail, .err s.transient.fType]) ∨
       (s.transient.fLen ≠ 0 ∧ t.transient.seq = .checksumRead ∧ t.transient.stage.length = s.transient.fLen.toNat ∧
        t.transient.idx.toNat = s.transient.fLen.toNat ∧
        t.trace = s.trace ++ [.recv s.transient.fLen.toNat (.ok t.transient.stage)])))

/-- 40_framing.md R89, the rows from ChecksumRead on, with the sub-state of 20_memory.md R45 in which hook_req is raised and
the hook has not answered: the transition into it, and the one out of it when the hook answers `b` (43_response_hook.md R145,
R146). From a state that meets the invariant that one accepts exactly when `b` is true, and then writes LAST_CMD alone. -/
def Obligations.SequencerDispatches : Prop :=
  ∀ (s t : State), tick .device s = .next t →
    (s.transient.seq = .checksumRead → s.transient.hookReq = false →
      (t.retained = s.retained ∧ t.transient.seq = .idle ∧
        t.trace = s.trace ++ [.recv 1 .fail, .err s.transient.fType]) ∨
      ∃ c, t.transient.fChk = c ∧
        ((t.transient.seq = .dispatchedAccepted ∧ t.transient.handled = true ∧
            t.retained.lastCmd = s.transient.fType ∧ t.trace = s.trace ++ [.recv 1 (.ok [c])]) ∨
         (t.transient.seq = .dispatchedRejected ∧ t.transient.handled = false ∧ t.retained = s.retained ∧
            t.trace = s.trace ++ [.recv 1 (.ok [c]), .err s.transient.fType]) ∨
         (t.transient.seq = .checksumRead ∧ t.transient.hookReq = true ∧ t.retained = s.retained ∧
            t.trace = s.trace ++ [.recv 1 (.ok [c])] ∧ waitsFor t = .hook s.transient.fType))) ∧
    (s.transient.seq = .checksumRead → s.transient.hookReq = true →
      ∃ (ports : List Port) (b : Bool) (rest : List HookEvent),
        s.env.hookIn = ports.map HookEvent.reads ++ .answers b :: rest ∧ t.env = { s.env with hookIn := rest } ∧
        t.transient.hookReq = false ∧
        ((t.transient.seq = .dispatchedAccepted ∧ t.transient.handled = true ∧
            t.retained.lastCmd = s.transient.fType ∧ t.trace = s.trace ++ [.hook s.transient.fType b]) ∨
         (t.transient.seq = .dispatchedRejected ∧ t.transient.handled = false ∧ t.retained = s.retained ∧
            t.trace = s.trace ++ [.hook s.transient.fType b, .err s.transient.fType])) ∧
        (Inv .device s → (t.transient.seq = .dispatchedAccepted ↔ b = true) ∧
          (b = true → t.retained = { s.retained with lastCmd := s.transient.fType }))) ∧
    (s.transient.seq = .dispatchedAccepted → t.retained = s.retained ∧ t.transient.seq = .idle ∧
      t.trace = s.trace ++ [.send [0x30#8]]) ∧
    (s.transient.seq = .dispatchedRejected → t.retained = s.retained ∧ t.transient.seq = .idle ∧ t.trace = s.trace)

/-- 10_state.md R18, R19, R22, R25, R27 and 43_response_hook.md R145: every step keeps the invariant, in and between polls,
from every state that meets it. -/
def Obligations.EveryStepKeepsTheInvariant : Prop := ∀ (s t : State), Inv .device s → step s = .next t → Inv .device t

/-- The state right after reset meets the invariant, and with nothing asked of it the block stays in Idle. -/
def Obligations.ResetMeetsTheInvariant : Prop := Inv .device State.reset ∧ step State.reset = .next State.reset

/-! ## The record of parameters (00_scope.md R5) -/

/-- 00_scope.md R5 (D17, log 11): the table's values are this hardware's record, which fits the machine's state; `exec`,
`step`, `State.reset` and the decoding of a table word are those of the record. LAST_CMD_RESET and HOOK_AT_RESET are the
spec's decision D9 (log 7). -/
def Obligations.ThisHardwareHasTheTablesParameters : Prop :=
  Config.device.selSendVariable = 0x01#8 ∧
  Config.device.nativeTags = [0x0D#8, 0x0E#8, 0x0F#8, 0x10#8, 0x11#8, 0x12#8, 0x14#8] ∧
  Config.device.tagUint16 = 0x0D#8 ∧ Config.device.tagInt16 = 0x0E#8 ∧ Config.device.tagInt8 = 0x0F#8 ∧
  Config.device.tagInt32 = 0x10#8 ∧ Config.device.tagFloat32 = 0x11#8 ∧ Config.device.tagUint32 = 0x12#8 ∧
  Config.device.tagStruct = 0x14#8 ∧ Config.device.tagRequest = 0x20#8 ∧ Config.device.respAck = 0x30#8 ∧
  Config.device.respNack = 0x31#8 ∧ Config.device.errTagUnknown = 0x00#8 ∧ Config.device.rawCap = 32 ∧
  Config.device.stageCap = 256 ∧ Config.device.lenMax = 255 ∧ Config.device.crcPolyReflected = 0x8C#8 ∧
  Config.device.crcSeed = 0x00#8 ∧ Config.device.wI8 = 1 ∧ Config.device.wI16 = 2 ∧ Config.device.wU16 = 2 ∧
  Config.device.wI32 = 4 ∧ Config.device.wU32 = 4 ∧ Config.device.wF32 = 4 ∧ Config.device.lastCmdReset = 0x00#8 ∧
  Config.device.hookAtReset = none ∧ Config.device.valid = true ∧
  (∀ (i : Instr) (s : State), exec i s = execWith .device i s) ∧ (∀ (s : State), step s = stepWith .device s) ∧
  State.reset = State.resetWith .device ∧
  ∀ (nbits w : Nat), decodeTableWord nbits w = (decode .device (tablePacket .device nbits w)).toOption.map Prod.fst

/-- 00_scope.md R5, D17, with 41_checksum.md R103 and 42_dispatch.md R111 to R118: the commands are those of the record they
are run with. For every record that fits the machine and every packet: a checksum other than the record's is a device error;
with it, a fixed-width tag of the record stores its register when the length is right and is a device error otherwise, the
structured tag stores the first RAW_CAP bytes, and any other tag is a device error while no hook is installed. An accepted
packet is answered with the record's RESP_ACK. -/
def Obligations.CommandsFollowTheParameterRecord : Prop :=
  ∀ (cfg : Config) (s : State) (t c : Byte) (p : List Byte), cfg.valid = true →
    let rejected := endsWith s.retained [.err t] s.env false s (execWith cfg (frameInstr cfg t p c) s)
    let accepted := fun r : Retained => endsWith { r with lastCmd := t } [.send [cfg.respAck]] s.env true s
      (execWith cfg (frameInstr cfg t p c) s)
    (c ≠ packetCrc cfg t p → rejected) ∧
    (c = packetCrc cfg t p →
      (t = cfg.tagInt8 → if p.length = 1 then accepted { s.retained with regI8 := operand8 p } else rejected) ∧
      (t = cfg.tagInt16 → if p.length = 2 then accepted { s.retained with regI16 := operand16 p } else rejected) ∧
      (t = cfg.tagUint16 → if p.length = 2 then accepted { s.retained with regU16 := operand16 p } else rejected) ∧
      (t = cfg.tagInt32 → if p.length = 4 then accepted { s.retained with regI32 := operand32 p } else rejected) ∧
      (t = cfg.tagUint32 → if p.length = 4 then accepted { s.retained with regU32 := operand32 p } else rejected) ∧
      (t = cfg.tagFloat32 → if p.length = 4 then accepted { s.retained with regF32 := operand32 p } else rejected) ∧
      (t = cfg.tagStruct → accepted { s.retained with
        rawBuf := p.take cfg.rawCap, rawLen := BitVec.ofNat 6 (min p.length cfg.rawCap) }) ∧
      (cfg.isNative t = false → s.retained.hook = none → rejected))

/-! ## The sequencer in a step (log 1) -/

/-- 40_framing.md R89, 20_memory.md R46, in the form the model gives them (log 1): with no operation of the owner pending, and
with `wait`, a step is one transition of the sequencer; the poll pulse between polls raises `busy` and changes nothing else. -/
def Obligations.StepIsATransitionOrThePulse : Prop :=
  ∀ (s : State) (ops : List OwnerOp),
    (s.env.owner = [] → step s = tick .device s) ∧
    (s.env.owner = .wait :: ops → step s = tick .device { s with env := { s.env with owner := ops } }) ∧
    (s.env.owner = .pollPulse :: ops → betweenPolls s → step s = .next { s with
      transient := { s.transient with busy := true }, env := { s.env with owner := ops } })
end

