-- ==== Sys2Proof/Laws/Config.lean ====
section
/-!
SUPPORT. The value of each parameter of this hardware (00_scope.md R5), one lemma per field.
-/

namespace Sys2Proof

theorem Config.device_selSendVariable : Config.device.selSendVariable = 0x01#8 := rfl
theorem Config.device_tagUint16 : Config.device.tagUint16 = 0x0D#8 := rfl
theorem Config.device_tagInt16 : Config.device.tagInt16 = 0x0E#8 := rfl
theorem Config.device_tagInt8 : Config.device.tagInt8 = 0x0F#8 := rfl
theorem Config.device_tagInt32 : Config.device.tagInt32 = 0x10#8 := rfl
theorem Config.device_tagFloat32 : Config.device.tagFloat32 = 0x11#8 := rfl
theorem Config.device_tagUint32 : Config.device.tagUint32 = 0x12#8 := rfl
theorem Config.device_tagStruct : Config.device.tagStruct = 0x14#8 := rfl
theorem Config.device_tagRequest : Config.device.tagRequest = 0x20#8 := rfl
theorem Config.device_respAck : Config.device.respAck = 0x30#8 := rfl
theorem Config.device_respNack : Config.device.respNack = 0x31#8 := rfl
theorem Config.device_errTagUnknown : Config.device.errTagUnknown = 0x00#8 := rfl
theorem Config.device_rawCap : Config.device.rawCap = 32 := rfl
theorem Config.device_stageCap : Config.device.stageCap = 256 := rfl
theorem Config.device_lenMax : Config.device.lenMax = 255 := rfl
theorem Config.device_crcPolyReflected : Config.device.crcPolyReflected = 0x8C#8 := rfl
theorem Config.device_crcSeed : Config.device.crcSeed = 0x00#8 := rfl
theorem Config.device_wI8 : Config.device.wI8 = 1 := rfl
theorem Config.device_wI16 : Config.device.wI16 = 2 := rfl
theorem Config.device_wU16 : Config.device.wU16 = 2 := rfl
theorem Config.device_wI32 : Config.device.wI32 = 4 := rfl
theorem Config.device_wU32 : Config.device.wU32 = 4 := rfl
theorem Config.device_wF32 : Config.device.wF32 = 4 := rfl
theorem Config.device_lastCmdReset : Config.device.lastCmdReset = 0x00#8 := rfl
theorem Config.device_hookAtReset : Config.device.hookAtReset = none := rfl

/-- This hardware's record fits the widths of the state. -/
theorem Config.device_valid : Config.device.valid = true := by decide

theorem Config.valid_iff (cfg : Config) : cfg.valid = true ↔
    cfg.nativeTags.Nodup ∧ cfg.rawCap < 2 ^ 6 ∧ cfg.lenMax = 2 ^ 8 - 1 ∧ cfg.lenMax ≤ cfg.stageCap ∧
    cfg.wI8 = 1 ∧ cfg.wI16 = 2 ∧ cfg.wU16 = 2 ∧ cfg.wI32 = 4 ∧ cfg.wU32 = 4 ∧ cfg.wF32 = 4 :=
  decide_eq_true_iff

end Sys2Proof
end

