-- ==== Sys2Proof/Laws/State.lean ====
section
/-!
SUPPORT. One lemma per field per update, each true by rfl, so that no later proof unfolds a record update.
-/

namespace Sys2Proof.Machine

variable {cfg : Config}

/-! ## Updates of the whole state -/

@[simp] theorem appendEvent_retained (e : Event) (s : State) : (appendEvent e s).retained = s.retained := rfl
@[simp] theorem appendEvent_transient (e : Event) (s : State) : (appendEvent e s).transient = s.transient := rfl
@[simp] theorem appendEvent_env (e : Event) (s : State) : (appendEvent e s).env = s.env := rfl
@[simp] theorem appendEvent_trace (e : Event) (s : State) : (appendEvent e s).trace = s.trace ++ [e] := rfl

@[simp] theorem startPoll_retained (s : State) : (startPoll s).retained = s.retained := rfl
@[simp] theorem startPoll_transient (s : State) : (startPoll s).transient = { s.transient with busy := true } := rfl
@[simp] theorem startPoll_env (s : State) : (startPoll s).env = s.env := rfl
@[simp] theorem startPoll_trace (s : State) : (startPoll s).trace = s.trace := rfl

@[simp] theorem endPoll_retained (s : State) : (endPoll s).retained = s.retained := rfl
@[simp] theorem endPoll_transient (s : State) :
    (endPoll s).transient =
      { s.transient with seq := .idle, busy := false, hookReq := false } := rfl
@[simp] theorem endPoll_env (s : State) : (endPoll s).env = s.env := rfl
@[simp] theorem endPoll_trace (s : State) : (endPoll s).trace = s.trace := rfl

@[simp] theorem signalError_retained (k : ErrorKind) (t : Byte) (s : State) :
    (signalError cfg k t s).retained =
      s.retained := rfl
@[simp] theorem signalError_transient (k : ErrorKind) (t : Byte) (s : State) :
    (signalError cfg k t s).transient =
      { s.transient with handled := false } := rfl
@[simp] theorem signalError_env (k : ErrorKind) (t : Byte) (s : State) : (signalError cfg k t s).env = s.env := rfl
@[simp] theorem signalError_trace (k : ErrorKind) (t : Byte) (s : State) :
    (signalError cfg k t s).trace =
      s.trace ++ [.err (errorTag cfg k t)] := rfl

@[simp] theorem raiseDeviceError_retained (k : ErrorKind) (t : Byte) (s : State) :
    (raiseDeviceError cfg k t s).retained =
      s.retained := rfl
@[simp] theorem raiseDeviceError_transient (k : ErrorKind) (t : Byte) (s : State) :
    (raiseDeviceError cfg k t s).transient =
      { s.transient with handled := false, seq := .idle, busy := false, hookReq := false } := rfl
@[simp] theorem raiseDeviceError_env (k : ErrorKind) (t : Byte) (s : State) :
    (raiseDeviceError cfg k t s).env =
      s.env := rfl
@[simp] theorem raiseDeviceError_trace (k : ErrorKind) (t : Byte) (s : State) :
    (raiseDeviceError cfg k t s).trace =
      s.trace ++ [.err (errorTag cfg k t)] := rfl

@[simp] theorem commit_retained (t : Byte) (f : Retained → Retained) (s : State) :
    (commit t f s).retained =
      writeLastCmd t (f s.retained) := rfl
@[simp] theorem commit_transient (t : Byte) (f : Retained → Retained) (s : State) :
    (commit t f s).transient =
      { s.transient with handled := true } := rfl
@[simp] theorem commit_env (t : Byte) (f : Retained → Retained) (s : State) : (commit t f s).env = s.env := rfl
@[simp] theorem commit_trace (t : Byte) (f : Retained → Retained) (s : State) : (commit t f s).trace = s.trace := rfl

@[simp] theorem sendAck_retained (s : State) : (sendAck cfg s).retained = s.retained := rfl
@[simp] theorem sendAck_transient (s : State) : (sendAck cfg s).transient = s.transient := rfl
@[simp] theorem sendAck_env (s : State) : (sendAck cfg s).env = s.env := rfl
@[simp] theorem sendAck_trace (s : State) : (sendAck cfg s).trace = s.trace ++ [.send [cfg.respAck]] := rfl

@[simp] theorem accept_retained (t : Byte) (f : Retained → Retained) (s : State) :
    (accept cfg t f s).retained =
      writeLastCmd t (f s.retained) := rfl
@[simp] theorem accept_transient (t : Byte) (f : Retained → Retained) (s : State) :
    (accept cfg t f s).transient =
      { s.transient with handled := true, seq := .idle, busy := false, hookReq := false } := rfl
@[simp] theorem accept_env (t : Byte) (f : Retained → Retained) (s : State) : (accept cfg t f s).env = s.env := rfl
@[simp] theorem accept_trace (t : Byte) (f : Retained → Retained) (s : State) :
    (accept cfg t f s).trace =
      s.trace ++ [.send [cfg.respAck]] := rfl

@[simp] theorem hookAnswered_retained (t : Byte) (b : Bool) (rest : List HookEvent) (s : State) :
    (hookAnswered t b rest s).retained =
      s.retained := rfl
@[simp] theorem hookAnswered_transient (t : Byte) (b : Bool) (rest : List HookEvent) (s : State) :
    (hookAnswered t b rest s).transient =
      { s.transient with hookReq := false } := rfl
@[simp] theorem hookAnswered_env (t : Byte) (b : Bool) (rest : List HookEvent) (s : State) :
    (hookAnswered t b rest s).env =
      { s.env with hookIn := rest } := rfl
@[simp] theorem hookAnswered_trace (t : Byte) (b : Bool) (rest : List HookEvent) (s : State) :
    (hookAnswered t b rest s).trace =
      s.trace ++ [.hook t b] := rfl

@[simp] theorem setCrcOk_retained (t : Byte) (p : List Byte) (c : Byte) (s : State) :
    (setCrcOk cfg t p c s).retained =
      s.retained := rfl
@[simp] theorem setCrcOk_transient (t : Byte) (p : List Byte) (c : Byte) (s : State) :
    (setCrcOk cfg t p c s).transient =
      { s.transient with crcRun := packetCrc cfg t p, crcOk := packetCrc cfg t p == c } := rfl
@[simp] theorem setCrcOk_env (t : Byte) (p : List Byte) (c : Byte) (s : State) : (setCrcOk cfg t p c s).env = s.env := rfl
@[simp] theorem setCrcOk_trace (t : Byte) (p : List Byte) (c : Byte) (s : State) :
    (setCrcOk cfg t p c s).trace =
      s.trace := rfl

@[simp] theorem setLenOk_retained (w : Nat) (p : List Byte) (s : State) : (setLenOk w p s).retained = s.retained := rfl
@[simp] theorem setLenOk_transient (w : Nat) (p : List Byte) (s : State) :
    (setLenOk w p s).transient =
      { s.transient with lenOk := p.length == w } := rfl
@[simp] theorem setLenOk_env (w : Nat) (p : List Byte) (s : State) : (setLenOk w p s).env = s.env := rfl
@[simp] theorem setLenOk_trace (w : Nat) (p : List Byte) (s : State) : (setLenOk w p s).trace = s.trace := rfl

@[simp] theorem enterHeader_retained (s : State) : (enterHeader s).retained = s.retained := rfl
@[simp] theorem enterHeader_transient (s : State) :
    (enterHeader s).transient =
      { s.transient with seq := .headerRead } := rfl
@[simp] theorem enterHeader_env (s : State) : (enterHeader s).env = s.env := rfl
@[simp] theorem enterHeader_trace (s : State) : (enterHeader s).trace = s.trace := rfl

@[simp] theorem stagePayload_retained (p : List Byte) (s : State) : (stagePayload cfg p s).retained = s.retained := rfl
@[simp] theorem stagePayload_transient (p : List Byte) (s : State) :
    (stagePayload cfg p s).transient =
      { s.transient with
        seq := .checksumRead, stage := p, idx := BitVec.ofNat 9 p.length, crcRun := crc8 cfg s.transient.crcRun p } := rfl
@[simp] theorem stagePayload_env (p : List Byte) (s : State) : (stagePayload cfg p s).env = s.env := rfl
@[simp] theorem stagePayload_trace (p : List Byte) (s : State) : (stagePayload cfg p s).trace = s.trace := rfl

@[simp] theorem rejectNow_retained (k : ErrorKind) (s : State) : (rejectNow cfg k s).retained = s.retained := rfl
@[simp] theorem rejectNow_transient (k : ErrorKind) (s : State) :
    (rejectNow cfg k s).transient =
      { s.transient with handled := false, seq := .dispatchedRejected } := rfl
@[simp] theorem rejectNow_env (k : ErrorKind) (s : State) : (rejectNow cfg k s).env = s.env := rfl
@[simp] theorem rejectNow_trace (k : ErrorKind) (s : State) :
    (rejectNow cfg k s).trace =
      s.trace ++ [.err (errorTag cfg k s.transient.fType)] := rfl

@[simp] theorem installHook_retained (h : HookId) (s : State) :
    (installHook h s).retained =
      { s.retained with hook := some h } := rfl
@[simp] theorem installHook_transient (h : HookId) (s : State) : (installHook h s).transient = s.transient := rfl
@[simp] theorem installHook_env (h : HookId) (s : State) : (installHook h s).env = s.env := rfl
@[simp] theorem installHook_trace (h : HookId) (s : State) : (installHook h s).trace = s.trace := rfl

@[simp] theorem resetBlock_retained (s : State) : (resetBlock cfg s).retained = Retained.reset cfg := rfl
@[simp] theorem resetBlock_transient (s : State) : (resetBlock cfg s).transient = Transient.reset := rfl
@[simp] theorem resetBlock_env (s : State) : (resetBlock cfg s).env = s.env := rfl
@[simp] theorem resetBlock_trace (s : State) : (resetBlock cfg s).trace = [] := rfl

@[simp] theorem dropOwner_retained (s : State) : (dropOwner s).retained = s.retained := rfl
@[simp] theorem dropOwner_transient (s : State) : (dropOwner s).transient = s.transient := rfl
@[simp] theorem dropOwner_env (s : State) : (dropOwner s).env = { s.env with owner := s.env.owner.tail } := rfl
@[simp] theorem dropOwner_trace (s : State) : (dropOwner s).trace = s.trace := rfl

/-! ## Writes of the retained state -/

@[simp] theorem writeI8_regI8 (v : BitVec 8) (r : Retained) : (writeI8 v r).regI8 = v := rfl
@[simp] theorem writeI8_regI16 (v : BitVec 8) (r : Retained) : (writeI8 v r).regI16 = r.regI16 := rfl
@[simp] theorem writeI8_regU16 (v : BitVec 8) (r : Retained) : (writeI8 v r).regU16 = r.regU16 := rfl
@[simp] theorem writeI8_regI32 (v : BitVec 8) (r : Retained) : (writeI8 v r).regI32 = r.regI32 := rfl
@[simp] theorem writeI8_regU32 (v : BitVec 8) (r : Retained) : (writeI8 v r).regU32 = r.regU32 := rfl
@[simp] theorem writeI8_regF32 (v : BitVec 8) (r : Retained) : (writeI8 v r).regF32 = r.regF32 := rfl
@[simp] theorem writeI8_rawBuf (v : BitVec 8) (r : Retained) : (writeI8 v r).rawBuf = r.rawBuf := rfl
@[simp] theorem writeI8_rawLen (v : BitVec 8) (r : Retained) : (writeI8 v r).rawLen = r.rawLen := rfl
@[simp] theorem writeI8_lastCmd (v : BitVec 8) (r : Retained) : (writeI8 v r).lastCmd = r.lastCmd := rfl
@[simp] theorem writeI8_hook (v : BitVec 8) (r : Retained) : (writeI8 v r).hook = r.hook := rfl

@[simp] theorem writeI16_regI8 (v : BitVec 16) (r : Retained) : (writeI16 v r).regI8 = r.regI8 := rfl
@[simp] theorem writeI16_regI16 (v : BitVec 16) (r : Retained) : (writeI16 v r).regI16 = v := rfl
@[simp] theorem writeI16_regU16 (v : BitVec 16) (r : Retained) : (writeI16 v r).regU16 = r.regU16 := rfl
@[simp] theorem writeI16_regI32 (v : BitVec 16) (r : Retained) : (writeI16 v r).regI32 = r.regI32 := rfl
@[simp] theorem writeI16_regU32 (v : BitVec 16) (r : Retained) : (writeI16 v r).regU32 = r.regU32 := rfl
@[simp] theorem writeI16_regF32 (v : BitVec 16) (r : Retained) : (writeI16 v r).regF32 = r.regF32 := rfl
@[simp] theorem writeI16_rawBuf (v : BitVec 16) (r : Retained) : (writeI16 v r).rawBuf = r.rawBuf := rfl
@[simp] theorem writeI16_rawLen (v : BitVec 16) (r : Retained) : (writeI16 v r).rawLen = r.rawLen := rfl
@[simp] theorem writeI16_lastCmd (v : BitVec 16) (r : Retained) : (writeI16 v r).lastCmd = r.lastCmd := rfl
@[simp] theorem writeI16_hook (v : BitVec 16) (r : Retained) : (writeI16 v r).hook = r.hook := rfl

@[simp] theorem writeU16_regI8 (v : BitVec 16) (r : Retained) : (writeU16 v r).regI8 = r.regI8 := rfl
@[simp] theorem writeU16_regI16 (v : BitVec 16) (r : Retained) : (writeU16 v r).regI16 = r.regI16 := rfl
@[simp] theorem writeU16_regU16 (v : BitVec 16) (r : Retained) : (writeU16 v r).regU16 = v := rfl
@[simp] theorem writeU16_regI32 (v : BitVec 16) (r : Retained) : (writeU16 v r).regI32 = r.regI32 := rfl
@[simp] theorem writeU16_regU32 (v : BitVec 16) (r : Retained) : (writeU16 v r).regU32 = r.regU32 := rfl
@[simp] theorem writeU16_regF32 (v : BitVec 16) (r : Retained) : (writeU16 v r).regF32 = r.regF32 := rfl
@[simp] theorem writeU16_rawBuf (v : BitVec 16) (r : Retained) : (writeU16 v r).rawBuf = r.rawBuf := rfl
@[simp] theorem writeU16_rawLen (v : BitVec 16) (r : Retained) : (writeU16 v r).rawLen = r.rawLen := rfl
@[simp] theorem writeU16_lastCmd (v : BitVec 16) (r : Retained) : (writeU16 v r).lastCmd = r.lastCmd := rfl
@[simp] theorem writeU16_hook (v : BitVec 16) (r : Retained) : (writeU16 v r).hook = r.hook := rfl

@[simp] theorem writeI32_regI8 (v : BitVec 32) (r : Retained) : (writeI32 v r).regI8 = r.regI8 := rfl
@[simp] theorem writeI32_regI16 (v : BitVec 32) (r : Retained) : (writeI32 v r).regI16 = r.regI16 := rfl
@[simp] theorem writeI32_regU16 (v : BitVec 32) (r : Retained) : (writeI32 v r).regU16 = r.regU16 := rfl
@[simp] theorem writeI32_regI32 (v : BitVec 32) (r : Retained) : (writeI32 v r).regI32 = v := rfl
@[simp] theorem writeI32_regU32 (v : BitVec 32) (r : Retained) : (writeI32 v r).regU32 = r.regU32 := rfl
@[simp] theorem writeI32_regF32 (v : BitVec 32) (r : Retained) : (writeI32 v r).regF32 = r.regF32 := rfl
@[simp] theorem writeI32_rawBuf (v : BitVec 32) (r : Retained) : (writeI32 v r).rawBuf = r.rawBuf := rfl
@[simp] theorem writeI32_rawLen (v : BitVec 32) (r : Retained) : (writeI32 v r).rawLen = r.rawLen := rfl
@[simp] theorem writeI32_lastCmd (v : BitVec 32) (r : Retained) : (writeI32 v r).lastCmd = r.lastCmd := rfl
@[simp] theorem writeI32_hook (v : BitVec 32) (r : Retained) : (writeI32 v r).hook = r.hook := rfl

@[simp] theorem writeU32_regI8 (v : BitVec 32) (r : Retained) : (writeU32 v r).regI8 = r.regI8 := rfl
@[simp] theorem writeU32_regI16 (v : BitVec 32) (r : Retained) : (writeU32 v r).regI16 = r.regI16 := rfl
@[simp] theorem writeU32_regU16 (v : BitVec 32) (r : Retained) : (writeU32 v r).regU16 = r.regU16 := rfl
@[simp] theorem writeU32_regI32 (v : BitVec 32) (r : Retained) : (writeU32 v r).regI32 = r.regI32 := rfl
@[simp] theorem writeU32_regU32 (v : BitVec 32) (r : Retained) : (writeU32 v r).regU32 = v := rfl
@[simp] theorem writeU32_regF32 (v : BitVec 32) (r : Retained) : (writeU32 v r).regF32 = r.regF32 := rfl
@[simp] theorem writeU32_rawBuf (v : BitVec 32) (r : Retained) : (writeU32 v r).rawBuf = r.rawBuf := rfl
@[simp] theorem writeU32_rawLen (v : BitVec 32) (r : Retained) : (writeU32 v r).rawLen = r.rawLen := rfl
@[simp] theorem writeU32_lastCmd (v : BitVec 32) (r : Retained) : (writeU32 v r).lastCmd = r.lastCmd := rfl
@[simp] theorem writeU32_hook (v : BitVec 32) (r : Retained) : (writeU32 v r).hook = r.hook := rfl

@[simp] theorem writeF32_regI8 (v : BitVec 32) (r : Retained) : (writeF32 v r).regI8 = r.regI8 := rfl
@[simp] theorem writeF32_regI16 (v : BitVec 32) (r : Retained) : (writeF32 v r).regI16 = r.regI16 := rfl
@[simp] theorem writeF32_regU16 (v : BitVec 32) (r : Retained) : (writeF32 v r).regU16 = r.regU16 := rfl
@[simp] theorem writeF32_regI32 (v : BitVec 32) (r : Retained) : (writeF32 v r).regI32 = r.regI32 := rfl
@[simp] theorem writeF32_regU32 (v : BitVec 32) (r : Retained) : (writeF32 v r).regU32 = r.regU32 := rfl
@[simp] theorem writeF32_regF32 (v : BitVec 32) (r : Retained) : (writeF32 v r).regF32 = v := rfl
@[simp] theorem writeF32_rawBuf (v : BitVec 32) (r : Retained) : (writeF32 v r).rawBuf = r.rawBuf := rfl
@[simp] theorem writeF32_rawLen (v : BitVec 32) (r : Retained) : (writeF32 v r).rawLen = r.rawLen := rfl
@[simp] theorem writeF32_lastCmd (v : BitVec 32) (r : Retained) : (writeF32 v r).lastCmd = r.lastCmd := rfl
@[simp] theorem writeF32_hook (v : BitVec 32) (r : Retained) : (writeF32 v r).hook = r.hook := rfl

@[simp] theorem writeLastCmd_regI8 (v : Byte) (r : Retained) : (writeLastCmd v r).regI8 = r.regI8 := rfl
@[simp] theorem writeLastCmd_regI16 (v : Byte) (r : Retained) : (writeLastCmd v r).regI16 = r.regI16 := rfl
@[simp] theorem writeLastCmd_regU16 (v : Byte) (r : Retained) : (writeLastCmd v r).regU16 = r.regU16 := rfl
@[simp] theorem writeLastCmd_regI32 (v : Byte) (r : Retained) : (writeLastCmd v r).regI32 = r.regI32 := rfl
@[simp] theorem writeLastCmd_regU32 (v : Byte) (r : Retained) : (writeLastCmd v r).regU32 = r.regU32 := rfl
@[simp] theorem writeLastCmd_regF32 (v : Byte) (r : Retained) : (writeLastCmd v r).regF32 = r.regF32 := rfl
@[simp] theorem writeLastCmd_rawBuf (v : Byte) (r : Retained) : (writeLastCmd v r).rawBuf = r.rawBuf := rfl
@[simp] theorem writeLastCmd_rawLen (v : Byte) (r : Retained) : (writeLastCmd v r).rawLen = r.rawLen := rfl
@[simp] theorem writeLastCmd_lastCmd (v : Byte) (r : Retained) : (writeLastCmd v r).lastCmd = v := rfl
@[simp] theorem writeLastCmd_hook (v : Byte) (r : Retained) : (writeLastCmd v r).hook = r.hook := rfl

@[simp] theorem writeRaw_regI8 (v : List Byte) (r : Retained) : (writeRaw v r).regI8 = r.regI8 := rfl
@[simp] theorem writeRaw_regI16 (v : List Byte) (r : Retained) : (writeRaw v r).regI16 = r.regI16 := rfl
@[simp] theorem writeRaw_regU16 (v : List Byte) (r : Retained) : (writeRaw v r).regU16 = r.regU16 := rfl
@[simp] theorem writeRaw_regI32 (v : List Byte) (r : Retained) : (writeRaw v r).regI32 = r.regI32 := rfl
@[simp] theorem writeRaw_regU32 (v : List Byte) (r : Retained) : (writeRaw v r).regU32 = r.regU32 := rfl
@[simp] theorem writeRaw_regF32 (v : List Byte) (r : Retained) : (writeRaw v r).regF32 = r.regF32 := rfl
@[simp] theorem writeRaw_rawBuf (v : List Byte) (r : Retained) : (writeRaw v r).rawBuf = v := rfl
@[simp] theorem writeRaw_rawLen (v : List Byte) (r : Retained) : (writeRaw v r).rawLen = BitVec.ofNat 6 v.length := rfl
@[simp] theorem writeRaw_lastCmd (v : List Byte) (r : Retained) : (writeRaw v r).lastCmd = r.lastCmd := rfl
@[simp] theorem writeRaw_hook (v : List Byte) (r : Retained) : (writeRaw v r).hook = r.hook := rfl

/-! ## Between polls -/

theorem betweenPolls_iff (s : State) : betweenPolls s ↔ s.transient.busy = false ∧ s.transient.seq = .idle := by
  unfold betweenPolls State.inPoll
  cases s.transient.busy <;> cases s.transient.seq <;> simp

/-- After a poll's end the block is between polls. -/
@[simp] theorem betweenPolls_endPoll (s : State) : betweenPolls (endPoll s) := rfl
@[simp] theorem betweenPolls_raiseDeviceError (k : ErrorKind) (t : Byte) (s : State) :
    betweenPolls (raiseDeviceError cfg k t s) := rfl
@[simp] theorem betweenPolls_accept (t : Byte) (f : Retained → Retained) (s : State) : betweenPolls (accept cfg t f s) := rfl

/-! ## What the claims' own functions say of a trace -/

@[simp] theorem sends_append (a b : List Event) : sends (a ++ b) = sends a ++ sends b := by simp [sends]
@[simp] theorem errs_append (a b : List Event) : errs (a ++ b) = errs a ++ errs b := by simp [errs]
@[simp] theorem recvs_append (a b : List Event) : recvs (a ++ b) = recvs a ++ recvs b := by simp [recvs]
@[simp] theorem hookCalls_append (a b : List Event) : hookCalls (a ++ b) = hookCalls a ++ hookCalls b := by
  simp [hookCalls]

end Sys2Proof.Machine
end

