-- ==== Sys2Proof/Laws/Receive.lean ====
section
/-!
SUPPORT. The receive port: what one request can do, and what each read of the receiver does on each answer.
-/

namespace Sys2Proof.Machine

variable {cfg : Config}

/-! ## One request -/

/-- A port that offers the bytes asked for answers them. -/
theorem takeRx_bytes (bs : List Byte) (rest : List RxEvent) :
    takeRx bs.length (onPort bs ++ rest) = .answered (.ok bs) rest := by
  induction bs with
  | nil => rfl
  | cons b bs ih =>
    have h : onPort (b :: bs) ++ rest = .byte b :: (onPort bs ++ rest) := rfl
    rw [h, List.length_cons, takeRx, ih, consByte]

/-- The failure flag before the last byte answers Fail. -/
theorem takeRx_fail {n : Nat} (pre : List Byte) (rest : List RxEvent) (h : pre.length < n) :
    takeRx n (onPort pre ++ .fail :: rest) = .answered .fail rest := by
  induction pre generalizing n with
  | nil => cases n with
    | zero => simp at h
    | succ n => rfl
  | cons b pre ih => cases n with
    | zero => simp at h
    | succ n =>
      have e : onPort (b :: pre) ++ RxEvent.fail :: rest = .byte b :: (onPort pre ++ .fail :: rest) := rfl
      rw [e, takeRx, ih (by simpa using h), consByte]
      simp

/-- A port that offers fewer bytes and nothing else leaves the request unanswered. -/
theorem takeRx_short {n : Nat} (pre : List Byte) (h : pre.length < n) : takeRx n (onPort pre) = .unanswered := by
  induction pre generalizing n with
  | nil => cases n with
    | zero => simp at h
    | succ n => rfl
  | cons b pre ih => cases n with
    | zero => simp at h
    | succ n =>
      have e : onPort (b :: pre) = .byte b :: onPort pre := rfl
      rw [e, takeRx, ih (by simpa using h), consByte]
      simp

/-- All that a request can do (20_memory.md R41): exactly one of three, by what the port offers. -/
theorem takeRx_cases (n : Nat) (rx : List RxEvent) :
    (∃ bs rest, bs.length = n ∧ rx = onPort bs ++ rest ∧ takeRx n rx = .answered (.ok bs) rest) ∨
    (∃ pre rest, pre.length < n ∧ rx = onPort pre ++ .fail :: rest ∧ takeRx n rx = .answered .fail rest) ∨
    (∃ pre, pre.length < n ∧ rx = onPort pre ∧ takeRx n rx = .unanswered) := by
  induction n generalizing rx with
  | zero => exact .inl ⟨[], rx, rfl, rfl, rfl⟩
  | succ n ih =>
    cases rx with
    | nil => exact .inr (.inr ⟨[], by simp, rfl, rfl⟩)
    | cons e rx => cases e with
      | fail => exact .inr (.inl ⟨[], rx, by simp, rfl, rfl⟩)
      | byte b =>
        rcases ih rx with ⟨bs, rest, hl, he, ht⟩ | ⟨pre, rest, hl, he, ht⟩ | ⟨pre, hl, he, ht⟩
        · exact .inl ⟨b :: bs, rest, by simp [hl], by simp [he, onPort], by rw [takeRx, ht, consByte]⟩
        · exact .inr (.inl ⟨b :: pre, rest, by simpa using hl, by simp [he, onPort], by rw [takeRx, ht, consByte]; simp⟩)
        · exact .inr (.inr ⟨b :: pre, by simpa using hl, by simp [he, onPort], by rw [takeRx, ht, consByte]; simp⟩)

@[simp] theorem ok_beq_fail (bs : List Byte) : (RecvAnswer.ok bs == RecvAnswer.fail) = false := rfl
@[simp] theorem fail_beq_fail : (RecvAnswer.fail == RecvAnswer.fail) = true := rfl

/-- The state after a request answered `a` with `rest` left on the port. -/
def afterRecv (n : Nat) (a : RecvAnswer) (rest : List RxEvent) (s : State) : State :=
  appendEvent (.recv n a)
    { s with env := { s.env with rx := rest }, transient := { s.transient with rxFail := a == .fail } }

@[simp] theorem afterRecv_retained (n : Nat) (a : RecvAnswer) (rest : List RxEvent) (s : State) :
    (afterRecv n a rest s).retained = s.retained := rfl
@[simp] theorem afterRecv_transient (n : Nat) (a : RecvAnswer) (rest : List RxEvent) (s : State) :
    (afterRecv n a rest s).transient = { s.transient with rxFail := a == .fail } := rfl
@[simp] theorem afterRecv_env (n : Nat) (a : RecvAnswer) (rest : List RxEvent) (s : State) :
    (afterRecv n a rest s).env = { s.env with rx := rest } := rfl
@[simp] theorem afterRecv_trace (n : Nat) (a : RecvAnswer) (rest : List RxEvent) (s : State) :
    (afterRecv n a rest s).trace = s.trace ++ [.recv n a] := rfl

theorem recv_answered {n : Nat} {s : State} {a : RecvAnswer} {rest : List RxEvent}
    (h : takeRx n s.env.rx = .answered a rest) : recv n s = some (a, afterRecv n a rest s) := by
  simp [recv, h, afterRecv]

theorem recv_unanswered {n : Nat} {s : State} (h : takeRx n s.env.rx = .unanswered) : recv n s = none := by
  simp [recv, h]

/-- All that Recv can do. -/
theorem recv_cases (n : Nat) (s : State) :
    (∃ bs rest, bs.length = n ∧ s.env.rx = onPort bs ++ rest ∧ recv n s = some (.ok bs, afterRecv n (.ok bs) rest s)) ∨
    (∃ pre rest, pre.length < n ∧ s.env.rx = onPort pre ++ .fail :: rest ∧
      recv n s = some (.fail, afterRecv n .fail rest s)) ∨
    (∃ pre, pre.length < n ∧ s.env.rx = onPort pre ∧ recv n s = none) := by
  rcases takeRx_cases n s.env.rx with ⟨bs, rest, hl, he, ht⟩ | ⟨pre, rest, hl, he, ht⟩ | ⟨pre, hl, he, ht⟩
  · exact .inl ⟨bs, rest, hl, he, recv_answered ht⟩
  · exact .inr (.inl ⟨pre, rest, hl, he, recv_answered ht⟩)
  · exact .inr (.inr ⟨pre, hl, he, recv_unanswered ht⟩)

/-! ## The four reads -/

/-- The state after a selector was read. -/
def afterSelector (cfg : Config) (sel : Byte) (rest : List RxEvent) (s : State) : State :=
  { afterRecv 1 (.ok [sel]) rest s with transient :=
    { s.transient with rxFail := false, fSel := sel, crcRun := cfg.crcSeed } }

/-- All that the selector read can do (40_framing.md R81). -/
theorem readSelector_cases (s : State) :
    (∃ sel rest, s.env.rx = .byte sel :: rest ∧ readSelector cfg s = .proceed (afterSelector cfg sel rest s)) ∨
    (∃ rest, s.env.rx = .fail :: rest ∧ readSelector cfg s = .ended .noFrame (endPoll (afterRecv 1 .fail rest s))) ∨
    (s.env.rx = [] ∧ readSelector cfg s = .unanswered) := by
  rcases recv_cases 1 s with ⟨bs, rest, hl, he, h⟩ | ⟨pre, rest, hl, he, h⟩ | ⟨pre, hl, he, h⟩
  · obtain ⟨sel, rfl⟩ := List.length_eq_one_iff.mp hl
    exact .inl ⟨sel, rest, by simpa [onPort] using he, by simp [readSelector, h, afterSelector, byteAt]⟩
  · obtain rfl : pre = [] := by simpa using hl
    exact .inr (.inl ⟨rest, by simpa [onPort] using he, by simp [readSelector, h]⟩)
  · obtain rfl : pre = [] := by simpa using hl
    exact .inr (.inr ⟨by simpa [onPort] using he, by simp [readSelector, h]⟩)

/-- The state after a header within the capacity was read. -/
def afterHeader (cfg : Config) (t l : Byte) (rest : List RxEvent) (s : State) : State :=
  { afterRecv 2 (.ok [t, l]) rest s with transient :=
    { s.transient with rxFail := false, fType := t, fLen := l, seq := .payloadRead, idx := 0,
                       crcRun := crc8 cfg s.transient.crcRun [t, l] } }

/-- All that the header read can do (40_framing.md R83; with room for any LEN the capacity check of R84 never fires, log 12). -/
theorem readHeader_cases (hcap : 255 ≤ cfg.stageCap) (s : State) :
    (∃ t l rest, s.env.rx = onPort [t, l] ++ rest ∧
      readHeader cfg s = .proceed (afterHeader cfg t l rest s)) ∨
    (∃ pre rest, pre.length < 2 ∧ s.env.rx = onPort pre ++ .fail :: rest ∧
      readHeader cfg s =
        .ended (.readFailure cfg.errTagUnknown) (raiseDeviceError cfg .hdr s.transient.fType (afterRecv 2 .fail rest s))) ∨
    (∃ pre, pre.length < 2 ∧ s.env.rx = onPort pre ∧ readHeader cfg s = .unanswered) := by
  rcases recv_cases 2 s with ⟨bs, rest, hl, he, h⟩ | ⟨pre, rest, hl, he, h⟩ | ⟨pre, hl, he, h⟩
  · obtain ⟨t, l, rfl⟩ := List.length_eq_two.mp hl
    have hc : ¬ l.toNat > cfg.stageCap := by have := l.isLt; omega
    exact .inl ⟨t, l, rest, he, by simp [readHeader, h, byteAt, afterHeader, hc]⟩
  · exact .inr (.inl ⟨pre, rest, hl, he, by simp [readHeader, h]⟩)
  · exact .inr (.inr ⟨pre, hl, he, by simp [readHeader, h]⟩)

/-- The events of a payload read that succeeds: none when LEN is 0. -/
def payloadEvents (p : List Byte) : List Event := if p = [] then [] else [.recv p.length (.ok p)]

/-- The state after a payload was read. -/
def afterPayload (cfg : Config) (p : List Byte) (rest : List RxEvent) (s : State) : State where
  retained := s.retained
  transient := { s.transient with
    rxFail := if p = [] then s.transient.rxFail else false, seq := .checksumRead, stage := p,
    idx := BitVec.ofNat 9 p.length, crcRun := crc8 cfg s.transient.crcRun p }
  env := { s.env with rx := rest }
  trace := s.trace ++ payloadEvents p

/-- All that the payload read can do (40_framing.md R85). -/
theorem readPayload_cases (s : State) :
    (∃ p rest, p.length = s.transient.fLen.toNat ∧ s.env.rx = onPort p ++ rest ∧
      readPayload cfg s = .proceed (afterPayload cfg p rest s)) ∨
    (∃ pre rest, pre.length < s.transient.fLen.toNat ∧ s.env.rx = onPort pre ++ .fail :: rest ∧
      readPayload cfg s = .ended (.readFailure s.transient.fType)
        (raiseDeviceError cfg .pay s.transient.fType (afterRecv s.transient.fLen.toNat .fail rest s))) ∨
    (∃ pre, pre.length < s.transient.fLen.toNat ∧ s.env.rx = onPort pre ∧ readPayload cfg s = .unanswered) := by
  by_cases h0 : s.transient.fLen = 0
  · refine .inl ⟨[], s.env.rx, by simp [h0], by simp [onPort], ?_⟩
    simp [readPayload, h0, stagePayload, afterPayload, payloadEvents]
  · have hz : s.transient.fLen.toNat ≠ 0 := fun hz => h0 (BitVec.eq_of_toNat_eq (by simpa using hz))
    rcases recv_cases s.transient.fLen.toNat s with ⟨p, rest, hl, he, h⟩ | ⟨pre, rest, hl, he, h⟩ | ⟨pre, hl, he, h⟩
    · have hp : p ≠ [] := by rintro rfl; simp at hl; omega
      refine .inl ⟨p, rest, hl, he, ?_⟩
      rw [readPayload, if_neg h0, h]
      simp [stagePayload, afterPayload, payloadEvents, hp, afterRecv, appendEvent, hl]
    · exact .inr (.inl ⟨pre, rest, hl, he, by rw [readPayload, if_neg h0, h]; rfl⟩)
    · exact .inr (.inr ⟨pre, hl, he, by rw [readPayload, if_neg h0, h]⟩)

/-- The state after the checksum byte was read. -/
def afterChecksum (c : Byte) (rest : List RxEvent) (s : State) : State :=
  { afterRecv 1 (.ok [c]) rest s with transient := { s.transient with rxFail := false, fChk := c } }

/-- All that the checksum-byte read can do (40_framing.md R86). -/
theorem readChecksum_cases (s : State) :
    (∃ c rest, s.env.rx = .byte c :: rest ∧ readChecksum cfg s = .proceed (afterChecksum c rest s)) ∨
    (∃ rest, s.env.rx = .fail :: rest ∧ readChecksum cfg s =
      .ended (.readFailure s.transient.fType) (raiseDeviceError cfg .chkrd s.transient.fType (afterRecv 1 .fail rest s))) ∨
    (s.env.rx = [] ∧ readChecksum cfg s = .unanswered) := by
  rcases recv_cases 1 s with ⟨bs, rest, hl, he, h⟩ | ⟨pre, rest, hl, he, h⟩ | ⟨pre, hl, he, h⟩
  · obtain ⟨c, rfl⟩ := List.length_eq_one_iff.mp hl
    exact .inl ⟨c, rest, by simpa [onPort] using he, by simp [readChecksum, h, afterChecksum, byteAt]⟩
  · obtain rfl : pre = [] := by simpa using hl
    exact .inr (.inl ⟨rest, by simpa [onPort] using he, by simp [readChecksum, h]⟩)
  · obtain rfl : pre = [] := by simpa using hl
    exact .inr (.inr ⟨by simpa [onPort] using he, by simp [readChecksum, h]⟩)

end Sys2Proof.Machine
end

