-- ==== Sys2Proof/Laws/Fetch.lean ====
section
/-!
SUPPORT. All that the fetch of one instruction can do (40_framing.md R80 lines 1 to 6), said once.
-/

namespace Sys2Proof.Machine

/-- The state once a "send variable" selector and the header have been read. -/
def afterHead (t l : Byte) (rest : List RxEvent) (s : State) : State where
  retained := s.retained
  transient := { s.transient with
    rxFail := false, fSel := Config.device.selSendVariable, fType := t, fLen := l, seq := .payloadRead, idx := 0,
    crcRun := crc8 .device Config.device.crcSeed [t, l] }
  env := { s.env with rx := rest }
  trace := s.trace ++ [.recv 1 (.ok [Config.device.selSendVariable]), .recv 2 (.ok [t, l])]

theorem afterHeader_afterSelector (t l : Byte) (rest rest0 : List RxEvent) (s : State) :
    afterHeader .device t l rest (enterHeader (afterSelector .device Config.device.selSendVariable rest0 s)) = afterHead t l rest s := by
  simp [afterHeader, afterSelector, enterHeader, afterHead, afterRecv, appendEvent]

/-- The state once a whole frame has been read. -/
def afterFrame (t : Byte) (p : List Byte) (c : Byte) (rest : List RxEvent) (s : State) : State where
  retained := s.retained
  transient := { s.transient with
    rxFail := false, fSel := Config.device.selSendVariable, fType := t, fLen := lenByte p, fChk := c, seq := .checksumRead,
    stage := p, idx := BitVec.ofNat 9 p.length, crcRun := packetCrc .device t p }
  env := { s.env with rx := rest }
  trace := s.trace ++ frameEvents .device t p c

/-- R101: the running value after the header is the seed for the payload. -/
theorem crc8_append (seed : Byte) (s u : List Byte) : crc8 .device seed (s ++ u) = crc8 .device (crc8 .device seed s) u := by
  induction s generalizing seed with
  | nil => rfl
  | cons b s ih => simp only [List.cons_append, crc8, ih]

theorem packetCrc_eq (t : Byte) (p : List Byte) : packetCrc .device t p = crc8 .device (crc8 .device Config.device.crcSeed [t, lenByte p]) p :=
  crc8_append _ _ _

theorem afterChecksum_afterPayload (t c : Byte) (p : List Byte) (rest rest0 rest1 : List RxEvent) (s : State) :
    afterChecksum c rest (afterPayload .device p rest0 (afterHead t (lenByte p) rest1 s)) = afterFrame t p c rest s := by
  simp [afterChecksum, afterPayload, afterHead, afterFrame, afterRecv, appendEvent, packetCrc_eq, frameEvents,
    payloadEvents]

/-- A LEN byte and a payload of that length. -/
theorem lenByte_of_length {p : List Byte} {l : Byte} (h : p.length = l.toNat) : lenByte p = l := by
  simp [lenByte, h]

theorem lenByte_toNat {p : List Byte} (h : p.length ≤ 255) : (lenByte p).toNat = p.length := by
  simp [lenByte]; omega

theorem length_le_of_toNat {p : List Byte} {l : Byte} (h : p.length = l.toNat) : p.length ≤ 255 := by
  have := l.isLt; omega

/-- How a fetch can end, with the bytes on the port that make it end so. -/
inductive FetchCase (s : State) : Fetched → Prop where
  | frame (t : Byte) (p : List Byte) (c : Byte) (rest : List RxEvent) (hp : p.length ≤ 255)
      (hrx : s.env.rx = onPort (frameBytes t p c) ++ rest) :
      FetchCase s (.command (frameInstr .device t p c) (afterFrame t p c rest s))
  | foreign (sel : Byte) (rest : List RxEvent) (hs : sel ≠ Config.device.selSendVariable)
      (hrx : s.env.rx = .byte sel :: rest) : FetchCase s (.command (.ignoreSelector sel) (afterSelector .device sel rest s))
  | noFrame (rest : List RxEvent) (hrx : s.env.rx = .fail :: rest) :
      FetchCase s (.ended .noFrame (endPoll (afterRecv 1 .fail rest s)))
  | header (pre : List Byte) (rest : List RxEvent) (hpre : pre.length < 2)
      (hrx : s.env.rx = .byte Config.device.selSendVariable :: (onPort pre ++ .fail :: rest)) :
      FetchCase s (.ended (.readFailure Config.device.errTagUnknown) (raiseDeviceError .device .hdr s.transient.fType
        (afterRecv 2 .fail rest (enterHeader (afterSelector .device Config.device.selSendVariable (onPort pre ++ .fail :: rest) s)))))
  | payload (t l : Byte) (pre : List Byte) (rest : List RxEvent) (hpre : pre.length < l.toNat)
      (hrx : s.env.rx = onPort [Config.device.selSendVariable, t, l] ++ (onPort pre ++ .fail :: rest)) :
      FetchCase s (.ended (.readFailure t) (raiseDeviceError .device .pay t
        (afterRecv l.toNat .fail rest (afterHead t l (onPort pre ++ .fail :: rest) s))))
  | checksum (t : Byte) (p : List Byte) (rest : List RxEvent) (hp : p.length ≤ 255)
      (hrx : s.env.rx = onPort ([Config.device.selSendVariable, t, lenByte p] ++ p) ++ .fail :: rest) :
      FetchCase s (.ended (.readFailure t) (raiseDeviceError .device .chkrd t
        (afterRecv 1 .fail rest (afterPayload .device p (.fail :: rest) (afterHead t (lenByte p) (onPort p ++ .fail :: rest) s)))))
  | unanswered (bs : List Byte) (e : DecodeError) (hrx : s.env.rx = onPort bs) (hd : decode .device bs = .error e) :
      FetchCase s .unanswered

theorem onPort_append (a b : List Byte) : onPort (a ++ b) = onPort a ++ onPort b := by simp [onPort]

theorem onPort_cons (b : Byte) (bs : List Byte) : onPort (b :: bs) = .byte b :: onPort bs := rfl

/-- All that a fetch can do. -/
theorem fetch_cases (s : State) : FetchCase s (fetch .device s) := by
  unfold fetch
  rcases readSelector_cases s with ⟨sel, rest0, hrx, h⟩ | ⟨rest, hrx, h⟩ | ⟨hrx, h⟩
  · rw [h, afterRead]
    have hsel : (afterSelector .device sel rest0 s).transient.fSel = sel := rfl
    by_cases hs : sel = Config.device.selSendVariable
    · subst hs
      rw [if_pos (by simp [sendVariable, hsel])]
      unfold fetchFrame
      have hrx1 : (enterHeader (afterSelector .device Config.device.selSendVariable rest0 s)).env.rx = rest0 := rfl
      rcases readHeader_cases (cfg := .device) (by decide) (enterHeader (afterSelector .device Config.device.selSendVariable rest0 s)) with
        ⟨t, l, rest1, he, h1⟩ | ⟨pre, rest1, hl, he, h1⟩ | ⟨pre, hl, he, h1⟩
      · rw [h1, afterRead, afterHeader_afterSelector]
        rw [hrx1] at he
        rcases readPayload_cases (afterHead t l rest1 s) with
          ⟨p, rest2, hp, he2, h2⟩ | ⟨pre, rest2, hl, he2, h2⟩ | ⟨pre, hl, he2, h2⟩
        · rw [h2, afterRead]
          replace hp : p.length = l.toNat := hp
          replace he2 : rest1 = onPort p ++ rest2 := he2
          obtain rfl : lenByte p = l := lenByte_of_length hp
          have hp' := length_le_of_toNat hp
          rcases readChecksum_cases (afterPayload .device p rest2 (afterHead t (lenByte p) rest1 s)) with
            ⟨c, rest3, he3, h3⟩ | ⟨rest3, he3, h3⟩ | ⟨he3, h3⟩
          · rw [h3, afterRead, afterChecksum_afterPayload]
            replace he3 : rest2 = .byte c :: rest3 := he3
            exact .frame t p c rest3 hp' (by
              rw [hrx, he, he2, he3]; simp [frameBytes, onPort, lenByte, Config.device_selSendVariable])
          · rw [h3, afterRead]
            replace he3 : rest2 = .fail :: rest3 := he3
            subst he3 he2
            exact .checksum t p rest3 hp' (by rw [hrx, he]; simp [onPort])
          · rw [h3, afterRead]
            replace he3 : rest2 = [] := he3
            refine .unanswered ([Config.device.selSendVariable, t, lenByte p] ++ p) .noChecksum
              (by rw [hrx, he, he2, he3]; simp [onPort]) ?_
            have hc : ¬ (lenByte p).toNat > Config.device.stageCap := by simp only [Config.device_stageCap]; omega
            simp only [decode, List.cons_append, List.nil_append, ↓reduceIte]
            rw [decodeBody, if_neg hc, if_neg (by omega), ← hp, List.drop_length]
        · rw [h2, afterRead]
          replace he2 : rest1 = onPort pre ++ .fail :: rest2 := he2
          subst he2
          exact .payload t l pre rest2 hl (by rw [hrx, he]; simp [onPort])
        · rw [h2, afterRead]
          replace he2 : rest1 = onPort pre := he2
          replace hl : pre.length < l.toNat := hl
          refine .unanswered ([Config.device.selSendVariable, t, l] ++ pre) .shortPayload
            (by rw [hrx, he, he2]; simp [onPort]) ?_
          have : ¬ l.toNat > Config.device.stageCap := by have := l.isLt; simp [Config.device_stageCap]; omega
          simp [decode, decodeBody, this, hl]
      · rw [h1, afterRead]
        rw [hrx1] at he
        subst he
        exact .header pre rest1 hl hrx
      · rw [h1, afterRead]
        rw [hrx1] at he
        refine .unanswered (Config.device.selSendVariable :: pre) .noHeader (by rw [hrx, he]; rfl) ?_
        match pre, hl with
        | [], _ => simp [decode]
        | [b], _ => simp [decode]
    · rw [if_neg (by simp [sendVariable, hsel, hs])]
      exact .foreign sel rest0 hs hrx
  · rw [h, afterRead]
    exact .noFrame rest hrx
  · rw [h, afterRead]
    exact .unanswered [] .noSelector (by simpa [onPort] using hrx) rfl

end Sys2Proof.Machine
end

