-- ==== Sys2Proof/Laws/Exec.lean ====
section
/-!
SUPPORT. All that the execution of one instruction can do (42_dispatch.md R110), said once.
-/

namespace Sys2Proof.Machine

/-! ## The dispatch table for any record of parameters is `exec` at this hardware's -/

@[simp] theorem execWith_device (i : Instr) (s : State) : execWith .device i s = exec i s := by
  cases i <;> rfl

/-! ## The shared operations of the dispatcher -/

theorem packetCrc_eq_rightChecksum (t : Byte) (p : List Byte) : packetCrc .device t p = rightChecksum t p := rfl

theorem withChecksum_right {t : Byte} {p : List Byte} {c : Byte} {s : State} {k : State → StepResult}
    (h : c = rightChecksum t p) : withChecksum .device t p c s k = k (setCrcOk .device t p c s) := by
  subst h
  simp [withChecksum, packetCrc_eq_rightChecksum]

theorem withChecksum_wrong {t : Byte} {p : List Byte} {c : Byte} {s : State} {k : State → StepResult}
    (h : c ≠ rightChecksum t p) :
    withChecksum .device t p c s k = .next (raiseDeviceError .device .crc t (setCrcOk .device t p c s)) := by
  have h' : ¬ packetCrc .device t p = c := fun e => h e.symm
  simp [withChecksum, h']

theorem storeFixed_fits {t : Byte} {w : Nat} {f : Retained → Retained} {p : List Byte} {c : Byte} {s : State}
    (h : c = rightChecksum t p) (hl : p.length = w) :
    storeFixed .device t w f p c s = .next (accept .device t f (setLenOk w p (setCrcOk .device t p c s))) := by
  simp [storeFixed, withChecksum_right h, hl]

theorem storeFixed_misfits {t : Byte} {w : Nat} {f : Retained → Retained} {p : List Byte} {c : Byte} {s : State}
    (h : c = rightChecksum t p) (hl : p.length ≠ w) :
    storeFixed .device t w f p c s = .next (raiseDeviceError .device .len t (setLenOk w p (setCrcOk .device t p c s))) := by
  simp [storeFixed, withChecksum_right h, hl]

/-- A run of the hook that answers, having read ports before. -/
theorem runHook_answers (ports : List Port) (b : Bool) (rest : List HookEvent) :
    runHook (ports.map HookEvent.reads ++ .answers b :: rest) = .answered b rest := by
  induction ports with
  | nil => rfl
  | cons p ps ih => simpa [runHook] using ih

theorem runHook_reenters (ports : List Port) (r : Reentry) (rest : List HookEvent) :
    runHook (ports.map HookEvent.reads ++ .reenters r :: rest) = .reentered r := by
  induction ports with
  | nil => rfl
  | cons p ps ih => simpa [runHook] using ih

theorem runHook_silent (ports : List Port) : runHook (ports.map HookEvent.reads) = .unanswered := by
  induction ports with
  | nil => rfl
  | cons p ps ih => simpa [runHook] using ih

/-- All that a run of the hook can do. -/
theorem runHook_cases (es : List HookEvent) :
    (∃ ports b rest, es = List.map HookEvent.reads ports ++ .answers b :: rest ∧ runHook es = .answered b rest) ∨
    (∃ ports r rest, es = List.map HookEvent.reads ports ++ .reenters r :: rest ∧ runHook es = .reentered r) ∨
    (∃ ports, es = List.map HookEvent.reads ports ∧ runHook es = .unanswered) := by
  induction es with
  | nil => exact .inr (.inr ⟨[], rfl, rfl⟩)
  | cons e es ih =>
    cases e with
    | answers b => exact .inl ⟨[], b, es, rfl, rfl⟩
    | reenters r => exact .inr (.inl ⟨[], r, es, rfl, rfl⟩)
    | reads p =>
      rcases ih with ⟨ps, b, rest, he, h⟩ | ⟨ps, r, rest, he, h⟩ | ⟨ps, he, h⟩
      · exact .inl ⟨p :: ps, b, rest, by simp [he], h⟩
      · exact .inr (.inl ⟨p :: ps, r, rest, by simp [he], h⟩)
      · exact .inr (.inr ⟨p :: ps, by simp [he], h⟩)

/-! ## One instruction -/

/-- Nothing has changed but the dispatcher's own flags. -/
structure FlagsOnly (s s1 : State) : Prop where
  retained : s1.retained = s.retained
  env : s1.env = s.env
  trace : s1.trace = s.trace
  transient : ∃ a b c, s1.transient = { s.transient with crcRun := a, crcOk := b, lenOk := c }

theorem flagsOnly_setCrcOk (t : Byte) (p : List Byte) (c : Byte) (s : State) : FlagsOnly s (setCrcOk .device t p c s) :=
  ⟨rfl, rfl, rfl, _, _, _, rfl⟩

theorem flagsOnly_setLenOk (w : Nat) (t : Byte) (p : List Byte) (c : Byte) (s : State) :
    FlagsOnly s (setLenOk w p (setCrcOk .device t p c s)) := ⟨rfl, rfl, rfl, _, _, _, rfl⟩

/-- How the execution of a frame can end, with the condition of each way. -/
inductive ExecCase (t : Byte) (p : List Byte) (c : Byte) (s : State) : StepResult → Prop where
  | crc (s1 : State) (h1 : FlagsOnly s s1) (hc : c ≠ rightChecksum t p) :
      ExecCase t p c s (.next (raiseDeviceError .device .crc t s1))
  | stored (s1 : State) (h1 : FlagsOnly s s1) (f : Retained → Retained) (hc : c = rightChecksum t p)
      (hn : Config.device.isNative t = true) (hl : ∀ w, requiredLen t = some w → p.length = w)
      (hf : ∀ r, writeLastCmd t (f r) = acceptedEffect t p r) :
      ExecCase t p c s (.next (accept .device t f s1))
  | length (s1 : State) (h1 : FlagsOnly s s1) (hc : c = rightChecksum t p) (hn : Config.device.isNative t = true)
      (w : Nat) (hw : requiredLen t = some w) (hl : p.length ≠ w) :
      ExecCase t p c s (.next (raiseDeviceError .device .len t s1))
  | noHook (s1 : State) (h1 : FlagsOnly s s1) (hc : c = rightChecksum t p) (hn : Config.device.isNative t = false)
      (hh : s.retained.hook = none) : ExecCase t p c s (.next (raiseDeviceError .device .unk t s1))
  | asked (s1 : State) (h1 : FlagsOnly s s1) (hc : c = rightChecksum t p) (hn : Config.device.isNative t = false)
      (h : HookId) (hh : s.retained.hook = some h) (ports : List Port) (b : Bool) (rest : List HookEvent)
      (hi : s.env.hookIn = ports.map HookEvent.reads ++ .answers b :: rest) :
      ExecCase t p c s (.next (finishHook .device t b (hookAnswered t b rest s1)))
  | silent (hc : c = rightChecksum t p) (hn : Config.device.isNative t = false) (h : HookId) (hh : s.retained.hook = some h)
      (ports : List Port) (hi : s.env.hookIn = ports.map HookEvent.reads) : ExecCase t p c s (.fault .hookUnanswered)
  | reentry (hc : c = rightChecksum t p) (hn : Config.device.isNative t = false) (h : HookId)
      (hh : s.retained.hook = some h) (ports : List Port) (r : Reentry) (rest : List HookEvent)
      (hi : s.env.hookIn = ports.map HookEvent.reads ++ .reenters r :: rest) :
      ExecCase t p c s (.refused (.hookReentry r))

theorem isNative_eq_false_iff (t : Byte) : Config.device.isNative t = false ↔
    t ≠ 0x0D#8 ∧ t ≠ 0x0E#8 ∧ t ≠ 0x0F#8 ∧ t ≠ 0x10#8 ∧ t ≠ 0x11#8 ∧ t ≠ 0x12#8 ∧ t ≠ 0x14#8 := by
  revert t; decide

theorem storeFixed_case {t : Byte} {w : Nat} {f : Retained → Retained} (p : List Byte) (c : Byte) (s : State)
    (hn : Config.device.isNative t = true) (hw : requiredLen t = some w)
    (hf : ∀ r, writeLastCmd t (f r) = acceptedEffect t p r) : ExecCase t p c s (storeFixed .device t w f p c s) := by
  by_cases hc : c = rightChecksum t p
  · by_cases hl : p.length = w
    · rw [storeFixed_fits hc hl]
      exact .stored _ (flagsOnly_setLenOk ..) f hc hn (fun w' h => by rw [hw] at h; simp_all) hf
    · rw [storeFixed_misfits hc hl]
      exact .length _ (flagsOnly_setLenOk ..) hc hn w hw hl
  · rw [storeFixed, withChecksum_wrong hc]
    exact .crc _ (flagsOnly_setCrcOk ..) hc

theorem execExt_case {t : Byte} (p : List Byte) (c : Byte) (s : State) (hn : Config.device.isNative t = false) :
    ExecCase t p c s (execExt t p c s) := by
  by_cases hc : c = rightChecksum t p
  · rw [execExt, execExtWith, withChecksum_right hc]
    have e1 : (setCrcOk .device t p c s).retained.hook = s.retained.hook := rfl
    have e2 : (setCrcOk .device t p c s).env.hookIn = s.env.hookIn := rfl
    rw [e1, e2]
    cases hh : s.retained.hook with
    | none => exact .noHook _ (flagsOnly_setCrcOk ..) hc hn hh
    | some h =>
      rcases runHook_cases s.env.hookIn with ⟨ps, b, rest, he, hr⟩ | ⟨ps, r, rest, he, hr⟩ | ⟨ps, he, hr⟩
      · simp only [hr]
        exact .asked _ (flagsOnly_setCrcOk ..) hc hn h hh ps b rest he
      · simp only [hr]
        exact .reentry hc hn h hh ps r rest he
      · simp only [hr]
        exact .silent hc hn h hh ps he
  · rw [execExt, execExtWith, withChecksum_wrong hc]
    exact .crc _ (flagsOnly_setCrcOk ..) hc

/-- All that the execution of a frame can do. -/
theorem exec_frame_cases (t : Byte) (p : List Byte) (c : Byte) (s : State) :
    ExecCase t p c s (exec (frameInstr .device t p c) s) := by
  unfold frameInstr
  split
  · subst t; exact storeFixed_case p c s rfl rfl (fun _ => rfl)
  split
  · subst t; exact storeFixed_case p c s rfl rfl (fun _ => rfl)
  split
  · subst t; exact storeFixed_case p c s rfl rfl (fun _ => rfl)
  split
  · subst t; exact storeFixed_case p c s rfl rfl (fun _ => rfl)
  split
  · subst t; exact storeFixed_case p c s rfl rfl (fun _ => rfl)
  split
  · subst t; exact storeFixed_case p c s rfl rfl (fun _ => rfl)
  split
  · subst t
    show ExecCase _ p c s (execSetStruct p c s)
    by_cases hc : c = rightChecksum Config.device.tagStruct p
    · rw [execSetStruct, execSetStructWith, withChecksum_right hc]
      refine .stored _ (flagsOnly_setCrcOk ..) _ hc rfl (fun w h => by simp [requiredLen,
        Config.device_tagStruct] at h) ?_
      intro r
      simp [writeLastCmd, writeRaw, acceptedEffect, Config.device_tagStruct, operandRaw, Config.device_rawCap,
        Nat.min_comm]
    · rw [execSetStruct, execSetStructWith, withChecksum_wrong hc]
      exact .crc _ (flagsOnly_setCrcOk ..) hc
  · rename_i h1 h2 h3 h4 h5 h6 h7
    exact execExt_case p c s ((isNative_eq_false_iff t).mpr ⟨h1, h2, h3, h4, h5, h6, h7⟩)

/-- An instruction is a frame or a foreign selector. -/
theorem instr_cases (i : Instr) :
    (∃ t p c, i.tag? .device = some t ∧ i.payload = p ∧
      (i = frameInstr .device t p c ∨ (i = .ext t p c ∧ Config.device.isNative t = true))) ∨ ∃ sel, i = .ignoreSelector sel := by
  cases i with
  | ext t p c =>
    refine .inl ⟨t, p, c, rfl, rfl, ?_⟩
    cases h : Config.device.isNative t with
    | true => exact .inr ⟨rfl, rfl⟩
    | false =>
      obtain ⟨h1, h2, h3, h4, h5, h6, h7⟩ := (isNative_eq_false_iff t).mp h
      exact .inl (by
        simp [frameInstr, Config.device_tagUint16, Config.device_tagInt16, Config.device_tagInt8,
          Config.device_tagInt32, Config.device_tagFloat32, Config.device_tagUint32, Config.device_tagStruct, h1, h2,
          h3, h4, h5, h6, h7])
  | ignoreSelector sel => exact .inr ⟨sel, rfl⟩
  | _ p c => exact .inl ⟨_, p, c, rfl, rfl, .inl rfl⟩

end Sys2Proof.Machine
end

