-- ==== Sys2Proof/Laws/Decode.lean ====
section
/-!
SUPPORT. The decoder and the encoder: what `frameInstr` keeps of a frame, that a frame's bytes decode to it, and all that
a successful decoding can be.
-/

namespace Sys2Proof

open Sys2Proof.Machine

variable {cfg : Config}

/-! ## frameInstr -/

theorem frameInstr_tag (t : Byte) (p : List Byte) (c : Byte) : (frameInstr cfg t p c).tag? cfg = some t := by
  unfold frameInstr
  repeat' split
  all_goals simp_all [Instr.tag?]

theorem frameInstr_payload (t : Byte) (p : List Byte) (c : Byte) : (frameInstr cfg t p c).payload = p := by
  unfold frameInstr
  repeat' split
  all_goals simp_all [Instr.payload]

theorem encode_frameInstr (t : Byte) (p : List Byte) (c : Byte) :
    encode cfg (frameInstr cfg t p c) = encodeFrame cfg t p c := by
  unfold frameInstr
  repeat' split
  all_goals simp_all [encode]

theorem recvEvents_frameInstr (t : Byte) (p : List Byte) (c : Byte) :
    recvEvents cfg (frameInstr cfg t p c) = frameEvents cfg t p c := by
  unfold frameInstr
  repeat' split
  all_goals simp_all [recvEvents]

/-- The row depends on the tag alone. -/
theorem frameInstr_mnemonic (t : Byte) (p : List Byte) (c : Byte) :
    (frameInstr cfg t p c).mnemonic = (frameInstr cfg t [] 0).mnemonic := by
  unfold frameInstr
  repeat' split
  all_goals rfl

theorem frameInstr_wellFormed {t : Byte} {p : List Byte} {c : Byte} (h : p.length ≤ cfg.lenMax) :
    (frameInstr cfg t p c).wellFormed cfg = true := by
  unfold frameInstr
  repeat' split
  all_goals simp_all [Instr.wellFormed, payloadFits, Config.isNative, Config.nativeTags]

/-- The map of 30_encoding.md R67 for any record: each native tag is its own command, since they are distinct. -/
theorem frameInstr_native (h : cfg.nativeTags.Nodup) (p : List Byte) (c : Byte) :
    frameInstr cfg cfg.tagUint16 p c = .setU16 p c ∧ frameInstr cfg cfg.tagInt16 p c = .setI16 p c ∧
    frameInstr cfg cfg.tagInt8 p c = .setI8 p c ∧ frameInstr cfg cfg.tagInt32 p c = .setI32 p c ∧
    frameInstr cfg cfg.tagFloat32 p c = .setF32 p c ∧ frameInstr cfg cfg.tagUint32 p c = .setU32 p c ∧
    frameInstr cfg cfg.tagStruct p c = .setStruct p c := by
  simp only [Config.nativeTags, List.nodup_cons, List.mem_cons, List.not_mem_nil, or_false, not_or] at h
  grind [frameInstr]

/-- Any other tag is EXT (R62). -/
theorem frameInstr_foreign {t : Byte} (h : cfg.isNative t = false) (p : List Byte) (c : Byte) :
    frameInstr cfg t p c = .ext t p c := by
  simp [Config.isNative, Config.nativeTags] at h
  simp [frameInstr, h]

theorem commandOutcome_frameInstr (t : Byte) (p : List Byte) (c : Byte) (b : Bool) :
    commandOutcome cfg (frameInstr cfg t p c) b = if b then .accepted t else .rejected t := by
  rw [commandOutcome, frameInstr_tag]

/-! ## decode -/

/-- The bytes of a frame decode to it, whatever follows. -/
theorem decode_encodeFrame {t : Byte} {p : List Byte} {c : Byte} (rest : List Byte) (hp : p.length ≤ 255)
    (hs : p.length ≤ cfg.stageCap) : decode cfg (encodeFrame cfg t p c ++ rest) = .ok (frameInstr cfg t p c, rest) := by
  have hl := lenByte_toNat hp
  have hc : ¬ (lenByte p).toNat > cfg.stageCap := by omega
  simp only [encodeFrame, List.cons_append, List.nil_append, List.append_assoc, decode, ↓reduceIte]
  rw [decodeBody, if_neg hc, if_neg (by simp; omega), hl]
  simp

/-- A successful decoding read a frame or a foreign selector. -/
theorem decode_ok_cases {bs rest : List Byte} {i : Instr} (h : decode cfg bs = .ok (i, rest)) :
    (∃ t p c, p.length ≤ 255 ∧ i = frameInstr cfg t p c ∧ bs = encodeFrame cfg t p c ++ rest) ∨
    (∃ sel, sel ≠ cfg.selSendVariable ∧ i = .ignoreSelector sel ∧ bs = sel :: rest) := by
  match bs with
  | [] => simp [decode] at h
  | sel :: bs =>
    by_cases hs : sel = cfg.selSendVariable
    · subst hs
      match bs with
      | [] => simp [decode] at h
      | [_] => simp [decode] at h
      | t :: l :: body =>
        simp only [decode, ↓reduceIte, decodeBody] at h
        split at h
        · simp at h
        split at h
        · simp at h
        split at h
        · simp at h
        · rename_i c r hd
          simp only [Except.ok.injEq, Prod.mk.injEq] at h
          obtain ⟨h1, h2⟩ := h
          subst h2
          have hlen : (body.take l.toNat).length = l.toNat := by simp; omega
          refine .inl ⟨t, body.take l.toNat, c, length_le_of_toNat hlen, h1.symm, ?_⟩
          have := List.take_append_drop l.toNat body
          rw [hd] at this
          simpa [encodeFrame, lenByte_of_length hlen] using this.symm
    · simp [decode, hs] at h
      exact .inr ⟨sel, hs, h.1.symm, by rw [h.2]⟩

/-! ## Bytes on the port -/

theorem onPort_injective_of_length {a b : List Byte} {x y : List RxEvent} (hl : a.length = b.length)
    (h : onPort a ++ x = onPort b ++ y) : a = b ∧ x = y := by
  induction a generalizing b with
  | nil => cases b with
    | nil => exact ⟨rfl, h⟩
    | cons _ _ => simp at hl
  | cons a as ih => cases b with
    | nil => simp at hl
    | cons b bs =>
      simp only [onPort_cons, List.cons_append, List.cons.injEq, RxEvent.byte.injEq] at h
      obtain ⟨rfl, rfl⟩ := ih (by simpa using hl) h.2
      exact ⟨by rw [h.1], rfl⟩

/-- A port that offers bytes alone offers no failure flag. -/
theorem onPort_ne_fail {a b : List Byte} {x : List RxEvent} : onPort a ≠ onPort b ++ .fail :: x := by
  intro h
  have : RxEvent.fail ∈ onPort a := by rw [h]; simp
  simp [onPort] at this

/-- What a port that offers bytes alone offers after some of them. -/
theorem onPort_split {bs b : List Byte} {rest : List RxEvent} (h : onPort bs = onPort b ++ rest) :
    ∃ r, bs = b ++ r ∧ rest = onPort r := by
  induction b generalizing bs with
  | nil => exact ⟨bs, rfl, h.symm⟩
  | cons b b' ih => cases bs with
    | nil => simp [onPort] at h
    | cons x xs =>
      simp only [onPort_cons, List.cons_append, List.cons.injEq, RxEvent.byte.injEq] at h
      obtain ⟨r, h1, h2⟩ := ih h.2
      exact ⟨r, by rw [h.1, h1]; rfl, h2⟩

/-! ## The checksum step -/

/-- One iteration is linear. -/
theorem crcShift_xor (a b : Byte) : crcShift .device (a ^^^ b) = crcShift .device a ^^^ crcShift .device b := by
  unfold crcShift
  rw [BitVec.getLsbD_xor, BitVec.ushiftRight_xor_distrib]
  cases a.getLsbD 0 <;> cases b.getLsbD 0 <;> simp
  · ac_rfl
  · ac_rfl
  · rw [show a >>> 1 ^^^ Config.device.crcPolyReflected ^^^ (b >>> 1 ^^^ Config.device.crcPolyReflected) =
      (a >>> 1 ^^^ b >>> 1) ^^^ (Config.device.crcPolyReflected ^^^ Config.device.crcPolyReflected) by ac_rfl]
    simp

end Sys2Proof
end

