-- ==== Sys2Proof/Laws/Memory.lean ====
section
/-!
SUPPORT. Every operation on the retained state keeps the Raw Buffer's canonical form (10_state.md R18, R19; log 10).
-/

namespace Sys2Proof.Machine

variable {cfg : Config}

theorem Memory.wf_iff (r : Retained) :
    Memory.wf cfg r = true ↔ r.rawBuf.length = r.rawLen.toNat ∧ r.rawLen.toNat ≤ cfg.rawCap :=
  decide_eq_true_iff

/-- The form depends on RAW_BUF and RAW_LEN alone. -/
theorem Memory.wf_congr {r r' : Retained} (h1 : r'.rawBuf = r.rawBuf) (h2 : r'.rawLen = r.rawLen) :
    Memory.wf cfg r' = Memory.wf cfg r := by
  rw [Memory.wf, Memory.wf, h1, h2]

theorem Memory.wf_reset : Memory.wf cfg (Retained.reset cfg) = true := rfl

/-- A sequence that fits is stored whole, and RAW_LEN is its length. -/
theorem Memory.wf_writeRaw {bs : List Byte} (hcap : cfg.rawCap < 2 ^ 6) (h : bs.length ≤ cfg.rawCap) (r : Retained) :
    Memory.wf cfg (writeRaw bs r) = true := by
  rw [Memory.wf_iff, writeRaw_rawBuf, writeRaw_rawLen, BitVec.toNat_ofNat]
  omega

theorem Memory.wf_writeRaw_operandRaw (hcap : cfg.rawCap < 2 ^ 6) (p : List Byte) (r : Retained) :
    Memory.wf cfg (writeRaw (operandRaw cfg p) r) = true :=
  Memory.wf_writeRaw hcap (List.length_take_le ..) r

theorem Memory.wf_writeI8 (v : BitVec 8) (r : Retained) : Memory.wf cfg (writeI8 v r) = Memory.wf cfg r := rfl
theorem Memory.wf_writeI16 (v : BitVec 16) (r : Retained) : Memory.wf cfg (writeI16 v r) = Memory.wf cfg r := rfl
theorem Memory.wf_writeU16 (v : BitVec 16) (r : Retained) : Memory.wf cfg (writeU16 v r) = Memory.wf cfg r := rfl
theorem Memory.wf_writeI32 (v : BitVec 32) (r : Retained) : Memory.wf cfg (writeI32 v r) = Memory.wf cfg r := rfl
theorem Memory.wf_writeU32 (v : BitVec 32) (r : Retained) : Memory.wf cfg (writeU32 v r) = Memory.wf cfg r := rfl
theorem Memory.wf_writeF32 (v : BitVec 32) (r : Retained) : Memory.wf cfg (writeF32 v r) = Memory.wf cfg r := rfl
theorem Memory.wf_writeLastCmd (t : Byte) (r : Retained) : Memory.wf cfg (writeLastCmd t r) = Memory.wf cfg r := rfl
theorem Memory.wf_installHook (h : HookId) (s : State) :
    Memory.wf cfg (installHook h s).retained = Memory.wf cfg s.retained := rfl
theorem Memory.wf_resetBlock (s : State) : Memory.wf cfg (resetBlock cfg s).retained = true := rfl

theorem Memory.wf_commit {t : Byte} {f : Retained → Retained} {s : State} (h : Memory.wf cfg (f s.retained) = true) :
    Memory.wf cfg (commit t f s).retained = true := h

/-- An accepted packet keeps the form, whatever its tag. -/
theorem Memory.wf_acceptedEffect (t : Byte) (p : List Byte) {r : Retained} (h : Memory.wf .device r = true) :
    Memory.wf .device (acceptedEffect t p r) = true := by
  unfold acceptedEffect
  repeat' split
  all_goals first | exact h | skip
  rw [Memory.wf_iff]
  simp only [List.length_take, BitVec.toNat_ofNat, Config.device_rawCap]
  omega

/-! ## The bytes of the Raw Buffer -/

/-- Reading back what was stored. -/
theorem rawByte_writeRaw (i : Nat) (bs : List Byte) (r : Retained) : rawByte i (writeRaw bs r) = bs[i]? := rfl

/-- At RAW_LEN and above nothing is stored. -/
theorem rawByte_none {r : Retained} (h : Memory.wf cfg r = true) {i : Nat} (hi : r.rawLen.toNat ≤ i) :
    rawByte i r = none := by
  rw [rawByte, List.getElem?_eq_none_iff, ((Memory.wf_iff r).mp h).1]
  exact hi

end Sys2Proof.Machine
end

