-- ==== Sys2Proof/Laws/PerInstr.lean ====
section
/-!
SUPPORT. Statements about every instruction as syntax, one lemma per constructor (LAWS.json).
-/

namespace Sys2Proof.Laws

open Sys2Proof Sys2Proof.Machine

/-- 30_encoding.md R60, R63: a packet has between 1 and 259 bytes; with a header it has 4 bytes more than its payload. -/
def EncodedLength.Statement (i : Instr) : Prop :=
  i.wellFormed .device = true →
    1 ≤ (encode .device i).length ∧ (encode .device i).length ≤ 259 ∧
      ((i.tag? .device).isSome = true → (encode .device i).length = 4 + i.payload.length)

theorem encodeFrame_length (t : Byte) (p : List Byte) (c : Byte) : (encodeFrame .device t p c).length = 4 + p.length := by
  simp [encodeFrame]; omega

theorem encodeFrame_bounds {t : Byte} {p : List Byte} {c : Byte} (h : payloadFits .device p = true) :
    1 ≤ (encodeFrame .device t p c).length ∧ (encodeFrame .device t p c).length ≤ 259 ∧
      (true = true → (encodeFrame .device t p c).length = 4 + p.length) := by
  have hp : p.length ≤ 255 := of_decide_eq_true h
  have hl := encodeFrame_length t p c
  exact ⟨by omega, by omega, fun _ => hl⟩

theorem EncodedLength.setU16 (p : List Byte) (c : Byte) : EncodedLength.Statement (.setU16 p c) := encodeFrame_bounds
theorem EncodedLength.setI16 (p : List Byte) (c : Byte) : EncodedLength.Statement (.setI16 p c) := encodeFrame_bounds
theorem EncodedLength.setI8 (p : List Byte) (c : Byte) : EncodedLength.Statement (.setI8 p c) := encodeFrame_bounds
theorem EncodedLength.setI32 (p : List Byte) (c : Byte) : EncodedLength.Statement (.setI32 p c) := encodeFrame_bounds
theorem EncodedLength.setF32 (p : List Byte) (c : Byte) : EncodedLength.Statement (.setF32 p c) := encodeFrame_bounds
theorem EncodedLength.setU32 (p : List Byte) (c : Byte) : EncodedLength.Statement (.setU32 p c) := encodeFrame_bounds
theorem EncodedLength.setStruct (p : List Byte) (c : Byte) : EncodedLength.Statement (.setStruct p c) :=
  encodeFrame_bounds
theorem EncodedLength.ext (t : Byte) (p : List Byte) (c : Byte) : EncodedLength.Statement (.ext t p c) := by
  intro h
  simp only [Instr.wellFormed, Bool.and_eq_true] at h
  exact encodeFrame_bounds h.1
theorem EncodedLength.ignoreSelector (sel : Byte) : EncodedLength.Statement (.ignoreSelector sel) := by
  intro _
  exact ⟨Nat.le_refl 1, Nat.le_of_ble_eq_true rfl, fun h => by simp [Instr.tag?] at h⟩

end Sys2Proof.Laws
end

