-- ==== Sys2Proof/Laws/Poll.lean ====
section
/-!
SUPPORT. The fetch by what the port offers, and all that a poll can do (40_framing.md R80, R88), said once.
-/

namespace Sys2Proof.Machine

/-! ## The step of a poll -/

theorem step_pollReady {s : State} {ops : List OwnerOp} (h : pollReady s ops) : step s = poll .device (dropOwner s) := by
  obtain ⟨h1, h2⟩ := h
  have h3 : (dropOwner s).inPoll = false := h1
  simp [step, stepWith, h2, ownerStep, h3]

theorem dropOwner_env_of_pollReady {s : State} {ops : List OwnerOp} (h : pollReady s ops) :
    (dropOwner s).env = { s.env with owner := ops } := by
  simp [h.2]

/-! ## The reads that succeed -/

theorem readSelector_byte {s : State} {sel : Byte} {rest : List RxEvent} (h : s.env.rx = .byte sel :: rest) :
    readSelector .device s = .proceed (afterSelector .device sel rest s) := by
  rcases readSelector_cases s with ⟨_, _, he, h'⟩ | ⟨_, he, _⟩ | ⟨he, _⟩ <;> rw [h] at he <;> simp at he
  obtain ⟨rfl, rfl⟩ := he
  exact h'

theorem readHeader_bytes {s : State} {t l : Byte} {rest : List RxEvent} (h : s.env.rx = onPort [t, l] ++ rest) :
    readHeader .device s = .proceed (afterHeader .device t l rest s) := by
  have hr : recv 2 s = some (.ok [t, l], afterRecv 2 (.ok [t, l]) rest s) :=
    recv_answered (by rw [h]; exact takeRx_bytes [t, l] rest)
  have hc : ¬ l.toNat > Config.device.stageCap := by have := l.isLt; simp only [Config.device_stageCap]; omega
  simp [readHeader, hr, byteAt, afterHeader, hc]

theorem readPayload_bytes {s : State} {p : List Byte} {rest : List RxEvent}
    (hl : p.length = s.transient.fLen.toNat) (h : s.env.rx = onPort p ++ rest) :
    readPayload .device s = .proceed (afterPayload .device p rest s) := by
  have ht := takeRx_bytes p rest
  rcases readPayload_cases s with ⟨p', rest', hl', he, h'⟩ | ⟨pre, rest', hl', he, _⟩ | ⟨pre, hl', he, _⟩
  · obtain ⟨rfl, rfl⟩ := onPort_injective_of_length (by omega) (he.symm.trans h)
    exact h'
  · rw [← h, he, hl, takeRx_fail pre rest' hl'] at ht; simp at ht
  · rw [← h, he, hl, takeRx_short pre hl'] at ht; simp at ht

theorem readChecksum_byte {s : State} {c : Byte} {rest : List RxEvent} (h : s.env.rx = .byte c :: rest) :
    readChecksum .device s = .proceed (afterChecksum c rest s) := by
  rcases readChecksum_cases s with ⟨_, _, he, h'⟩ | ⟨_, he, _⟩ | ⟨he, _⟩ <;> rw [h] at he <;> simp at he
  obtain ⟨rfl, rfl⟩ := he
  exact h'

theorem sendVariable_afterSelector (sel : Byte) (rest : List RxEvent) (s : State) :
    sendVariable .device (afterSelector .device sel rest s) = (sel == Config.device.selSendVariable) := rfl

/-! ## The fetch, case by case -/

theorem fetch_noFrame {s : State} {rest : List RxEvent} (h : s.env.rx = .fail :: rest) :
    fetch .device s = .ended .noFrame (endPoll (afterRecv 1 .fail rest s)) := by
  rcases readSelector_cases s with ⟨_, _, he, _⟩ | ⟨_, he, h'⟩ | ⟨he, _⟩ <;> rw [h] at he <;> simp at he
  subst he
  rw [fetch, h', afterRead]

theorem fetch_foreign {s : State} {sel : Byte} {rest : List RxEvent} (hs : sel ≠ Config.device.selSendVariable)
    (h : s.env.rx = .byte sel :: rest) : fetch .device s = .command (.ignoreSelector sel) (afterSelector .device sel rest s) := by
  rw [fetch, readSelector_byte h, afterRead, sendVariable_afterSelector, if_neg (by simpa using hs)]
  rfl

theorem fetch_sendVariable {s : State} {rest : List RxEvent} (h : s.env.rx = .byte Config.device.selSendVariable :: rest) :
    fetch .device s = fetchFrame .device (afterSelector .device Config.device.selSendVariable rest s) := by
  rw [fetch, readSelector_byte h, afterRead, sendVariable_afterSelector, if_pos (by simp)]

theorem fetch_headerFails {s : State} {rx rest : List RxEvent} (h : s.env.rx = .byte Config.device.selSendVariable :: rx)
    (ht : takeRx 2 rx = .answered .fail rest) :
    fetch .device s = .ended (.readFailure Config.device.errTagUnknown) (raiseDeviceError .device .hdr s.transient.fType
      (afterRecv 2 .fail rest (enterHeader (afterSelector .device Config.device.selSendVariable rx s)))) := by
  rw [fetch_sendVariable h, fetchFrame, readHeader, recv_answered (a := .fail) (rest := rest) ht]
  rfl

/-- After the header: the payload, the checksum byte, and the command they make. -/
theorem fetch_header {s : State} {t l : Byte} {rest : List RxEvent}
    (h : s.env.rx = onPort [Config.device.selSendVariable, t, l] ++ rest) :
    fetch .device s = afterRead (readPayload .device (afterHead t l rest s)) fun s3 => afterRead (readChecksum .device s3) fun s4 =>
      .command (frameInstr .device s4.transient.fType s4.transient.stage s4.transient.fChk) s4 := by
  rw [fetch_sendVariable (rest := onPort [t, l] ++ rest) h, fetchFrame,
    readHeader_bytes (t := t) (l := l) (rest := rest) rfl, afterRead, afterHeader_afterSelector]

theorem fetch_payloadFails {s : State} {t l : Byte} {rx rest : List RxEvent}
    (h : s.env.rx = onPort [Config.device.selSendVariable, t, l] ++ rx) (ht : takeRx l.toNat rx = .answered .fail rest) :
    fetch .device s = .ended (.readFailure t) (raiseDeviceError .device .pay t (afterRecv l.toNat .fail rest (afterHead t l rx s))) := by
  have h0 : l ≠ 0 := by rintro rfl; simp [takeRx] at ht
  rw [fetch_header h, readPayload, if_neg (by exact h0), recv_answered (a := .fail) (rest := rest) ht]
  rfl

theorem fetch_checksumFails {s : State} {t : Byte} {p : List Byte} {rest : List RxEvent} (hp : p.length ≤ 255)
    (h : s.env.rx = onPort ([Config.device.selSendVariable, t, lenByte p] ++ p) ++ .fail :: rest) :
    fetch .device s = .ended (.readFailure t) (raiseDeviceError .device .chkrd t (afterRecv 1 .fail rest
      (afterPayload .device p (.fail :: rest) (afterHead t (lenByte p) (onPort p ++ .fail :: rest) s)))) := by
  rw [onPort_append, List.append_assoc] at h
  rw [fetch_header h, readPayload_bytes (p := p) (rest := .fail :: rest) (lenByte_toNat hp).symm rfl, afterRead,
    readChecksum, recv_answered (a := .fail) (rest := rest) rfl]
  rfl

theorem fetch_frame {s : State} {t c : Byte} {p : List Byte} {rest : List RxEvent} (hp : p.length ≤ 255)
    (h : s.env.rx = onPort (frameBytes t p c) ++ rest) :
    fetch .device s = .command (frameInstr .device t p c) (afterFrame t p c rest s) := by
  have e : onPort (frameBytes t p c) ++ rest =
      onPort [Config.device.selSendVariable, t, lenByte p] ++ (onPort p ++ .byte c :: rest) := by
    simp [frameBytes, onPort, lenByte, Config.device_selSendVariable]
  rw [fetch_header (h.trans e), readPayload_bytes (p := p) (rest := .byte c :: rest) (lenByte_toNat hp).symm rfl,
    afterRead, readChecksum_byte (c := c) (rest := rest) rfl, afterRead, afterChecksum_afterPayload]
  rfl

theorem fetch_unanswered {s : State} {bs : List Byte} {e : DecodeError} (hd : decode .device bs = .error e)
    (h : s.env.rx = onPort bs) : fetch .device s = .unanswered := by
  have hc := fetch_cases s
  revert hc
  generalize fetch .device s = f
  intro hc
  cases hc with
  | unanswered => rfl
  | frame t p c rest hp hrx =>
    obtain ⟨r, rfl, -⟩ := onPort_split (h.symm.trans hrx)
    rw [show frameBytes t p c = encodeFrame .device t p c from rfl, decode_encodeFrame r hp (Nat.le_trans hp (by decide))] at hd
    simp at hd
  | foreign sel rest hs hrx =>
    obtain ⟨r, rfl, -⟩ := onPort_split (b := [sel]) (h.symm.trans hrx)
    simp [decode, hs] at hd
  | noFrame rest hrx => exact absurd (h.symm.trans hrx) (onPort_ne_fail (b := []))
  | header pre rest hpre hrx =>
    exact absurd (h.symm.trans hrx) (onPort_ne_fail (b := Config.device.selSendVariable :: pre))
  | payload t l pre rest hpre hrx =>
    exact absurd (h.symm.trans (hrx.trans (by simp [onPort])))
      (onPort_ne_fail (b := Config.device.selSendVariable :: t :: l :: pre) (x := rest))
  | checksum t p rest hp hrx => exact absurd (h.symm.trans hrx) onPort_ne_fail

/-! ## All that a poll can do -/

theorem acceptedEffect_lastCmd (t : Byte) (p : List Byte) (r : Retained) : (acceptedEffect t p r).lastCmd = t := by
  unfold acceptedEffect
  repeat' split
  all_goals rfl

theorem acceptedEffect_hook (t : Byte) (p : List Byte) (r : Retained) : (acceptedEffect t p r).hook = r.hook := by
  unfold acceptedEffect
  repeat' split
  all_goals rfl

theorem acceptedEffect_of_not_native {t : Byte} {p : List Byte} {r : Retained} (hn : Config.device.isNative t = false) :
    acceptedEffect t p r = writeLastCmd t r := by
  obtain ⟨h1, h2, h3, h4, h5, h6, h7⟩ := (isNative_eq_false_iff t).mp hn
  simp [acceptedEffect, h1, h2, h3, h4, h5, h6, h7, writeLastCmd]

theorem requiredLen_of_not_native {t : Byte} (hn : Config.device.isNative t = false) : requiredLen t = none := by
  obtain ⟨h1, h2, h3, h4, h5, h6, h7⟩ := (isNative_eq_false_iff t).mp hn
  simp [requiredLen, h1, h2, h3, h4, h5, h6]

/-- What the claims' functions say of a whole frame's receive events. -/
theorem sends_frameEvents (t : Byte) (p : List Byte) (c : Byte) : sends (frameEvents .device t p c) = [] := by
  by_cases h : p = [] <;> simp [frameEvents, h, sends]
theorem errs_frameEvents (t : Byte) (p : List Byte) (c : Byte) : errs (frameEvents .device t p c) = [] := by
  by_cases h : p = [] <;> simp [frameEvents, h, errs]
theorem hookCalls_frameEvents (t : Byte) (p : List Byte) (c : Byte) : hookCalls (frameEvents .device t p c) = [] := by
  by_cases h : p = [] <;> simp [frameEvents, h, hookCalls]
theorem recvs_frameEvents_length (t : Byte) (p : List Byte) (c : Byte) : (recvs (frameEvents .device t p c)).length ≤ 4 := by
  by_cases h : p = [] <;> simp [frameEvents, h, recvs]

/-- The events of a poll that no dispatch decided, by its outcome. -/
def QuietEvents (o : PollOutcome) (fLen : Byte) (evs : List Event) : Prop :=
  (o = .noFrame ∧ evs = [.recv 1 .fail]) ∨
  (o = .otherSelector ∧ ∃ b, b ≠ Config.device.selSendVariable ∧ evs = [.recv 1 (.ok [b])]) ∨
  (o = .readFailure 0 ∧ evs = [.recv 1 (.ok [0x01#8]), .recv 2 .fail, .err 0x00#8]) ∨
  (∃ t l : Byte, l ≠ 0 ∧ o = .readFailure t ∧
    evs = [.recv 1 (.ok [0x01#8]), .recv 2 (.ok [t, l]), .recv l.toNat .fail, .err t]) ∨
  (∃ (t : Byte) (p : List Byte), p.length ≤ 255 ∧ o = .readFailure t ∧ fLen.toNat = p.length ∧
    evs = [.recv 1 (.ok [0x01#8]), .recv 2 (.ok [t, BitVec.ofNat 8 p.length])] ++
      (if p = [] then [] else [.recv p.length (.ok p)]) ++ [.recv 1 .fail, .err t])

/-- How a poll from `s` can end, with its outcome. -/
inductive PollCase (s : State) : StepResult → Option PollOutcome → Prop where
  | quiet (o : PollOutcome) (u : State) (evs : List Event) (hr : u.retained = s.retained)
      (ht : u.trace = s.trace ++ evs) (hb : betweenPolls u) (hq : u.transient.hookReq = false)
      (hst : u.transient.stage = s.transient.stage ∨ u.transient.stage.length ≤ 255)
      (ho : QuietEvents o u.transient.fLen evs) : PollCase s (.next u) (some o)
  | rejected (t : Byte) (p : List Byte) (c : Byte) (hk : List Event) (u : State) (hp : p.length ≤ 255)
      (hr : u.retained = s.retained) (ht : u.trace = s.trace ++ (frameEvents .device t p c ++ hk ++ [.err t]))
      (hb : betweenPolls u) (hq : u.transient.hookReq = false) (hst : u.transient.stage = p)
      (hl : u.transient.fLen.toNat = p.length) (hk' : hk = [] ∨ hk = [.hook t false])
      (hh : u.transient.handled = false) : PollCase s (.next u) (some (.rejected t))
  | accepted (t : Byte) (p : List Byte) (c : Byte) (hk : List Event) (u : State) (hp : p.length ≤ 255)
      (hr : u.retained = acceptedEffect t p s.retained)
      (ht : u.trace = s.trace ++ (frameEvents .device t p c ++ hk ++ [.send [Config.device.respAck]]))
      (hb : betweenPolls u) (hq : u.transient.hookReq = false) (hst : u.transient.stage = p)
      (hl : u.transient.fLen.toNat = p.length) (hk' : hk = [] ∨ hk = [.hook t true])
      (hh : u.transient.handled = true) (hc : c = rightChecksum t p)
      (hw : ∀ w, requiredLen t = some w → p.length = w)
      (hrx : s.env.rx = onPort (frameBytes t p c) ++ u.env.rx) : PollCase s (.next u) (some (.accepted t))
  | hang (f : Fault) : PollCase s (.fault f) none
  | refused (r : Refusal) : PollCase s (.refused r) none

/-- The outcome of a poll that fetched a frame with tag `t`. -/
def frameOutcome (t : Byte) : StepResult → Option PollOutcome
  | .next u => some (if u.transient.handled then .accepted t else .rejected t)
  | .fault _ => none
  | .refused _ => none

/-- A frame's execution, seen from the poll that fetched it. -/
theorem pollCase_frame {s : State} {t c : Byte} {p : List Byte} {rest : List RxEvent} (hp : p.length ≤ 255)
    (hrx : s.env.rx = onPort (frameBytes t p c) ++ rest) {o : StepResult}
    (hx : ExecCase t p c (afterFrame t p c rest (startPoll s)) o) :
    PollCase s o (frameOutcome t o) := by
  have base : ∀ s1, FlagsOnly (afterFrame t p c rest (startPoll s)) s1 → s1.retained = s.retained ∧
      s1.trace = s.trace ++ frameEvents .device t p c ∧ s1.transient.stage = p ∧ s1.transient.fLen.toNat = p.length ∧
      s1.env.rx = rest := by
    rintro s1 ⟨h1, h2, h3, _, _, _, h4⟩
    exact ⟨h1, h3, by rw [h4]; rfl, by rw [h4]; exact lenByte_toNat hp, by rw [h2]; rfl⟩
  have rej : ∀ (k : ErrorKind) (s1 : State) (hk : List Event), errorTag .device k t = t →
      hk = [] ∨ hk = [.hook t false] → s1.retained = s.retained → s1.trace = s.trace ++ (frameEvents .device t p c ++ hk) →
      s1.transient.stage = p → s1.transient.fLen.toNat = p.length →
      PollCase s (.next (raiseDeviceError .device k t s1)) (some (.rejected t)) := by
    intro k s1 hk he hk' h1 h2 h3 h4
    exact .rejected t p c hk _ hp h1 (by simp [h2, he]) rfl rfl h3 h4 hk' rfl
  cases hx with
  | crc s1 f => obtain ⟨a, b, d, e, -⟩ := base s1 f; exact rej .crc s1 [] rfl (.inl rfl) a (by simpa using b) d e
  | length s1 f => obtain ⟨a, b, d, e, -⟩ := base s1 f; exact rej .len s1 [] rfl (.inl rfl) a (by simpa using b) d e
  | noHook s1 f => obtain ⟨a, b, d, e, -⟩ := base s1 f; exact rej .unk s1 [] rfl (.inl rfl) a (by simpa using b) d e
  | stored s1 f g hc hn hl hf =>
    obtain ⟨a, b, d, e, x⟩ := base s1 f
    exact .accepted t p c [] _ hp (by rw [accept_retained, hf, a]) (by simp [b]) rfl rfl d e (.inl rfl) rfl hc hl
      (by rw [accept_env, x]; exact hrx)
  | asked s1 f hc hn h hh ports b' rest' hi =>
    obtain ⟨a, b, d, e, x⟩ := base s1 f
    cases b' with
    | false => exact rej .unk _ [.hook t false] rfl (.inr rfl) a (by simp [b]) d e
    | true =>
      refine .accepted t p c [.hook t true] (accept .device t id (hookAnswered t true rest' s1)) hp ?_ (by simp [b]) rfl rfl d e
        (.inr rfl) rfl hc (fun w hw => ?_) ?_
      · rw [acceptedEffect_of_not_native hn, accept_retained, hookAnswered_retained, a, id]
      · rw [requiredLen_of_not_native hn] at hw; simp at hw
      · rw [accept_env, hookAnswered_env, x]; exact hrx
  | silent => exact .hang _
  | reentry => exact .refused _

/-- All that a poll can do. -/
theorem poll_cases (s : State) : PollCase s (poll .device s) (pollOutcome .device s) := by
  have h := fetch_cases (startPoll s)
  rw [poll, pollOutcome]
  revert h
  generalize fetch .device (startPoll s) = f
  intro h
  cases h with
  | noFrame rest hrx => exact .quiet _ _ _ rfl rfl rfl rfl (.inl rfl) (.inl ⟨rfl, rfl⟩)
  | foreign sel rest hs hrx => exact .quiet _ _ _ rfl rfl rfl rfl (.inl rfl) (.inr (.inl ⟨rfl, sel, hs, rfl⟩))
  | header pre rest hpre hrx =>
    exact .quiet _ _ _ rfl (by simp [afterSelector, errorTag, Config.device_selSendVariable,
      Config.device_errTagUnknown]) rfl rfl
      (.inl rfl) (.inr (.inr (.inl ⟨rfl, rfl⟩)))
  | payload t l pre rest hpre hrx =>
    exact .quiet _ _ _ rfl (by simp [afterHead, errorTag, Config.device_selSendVariable]) rfl rfl (.inl rfl)
      (.inr (.inr (.inr (.inl ⟨t, l, by rintro rfl; simp at hpre, rfl, rfl⟩))))
  | checksum t p rest hp hrx =>
    exact .quiet _ _ _ rfl (by simp [afterHead, afterPayload]; rfl) rfl rfl (.inr hp)
      (.inr (.inr (.inr (.inr ⟨t, p, hp, rfl, lenByte_toNat hp,
        by simp [payloadEvents, errorTag, lenByte, Config.device_selSendVariable]⟩))))
  | unanswered bs e hrx hd => exact .hang _
  | frame t p c rest hp hrx =>
    simp only [commandOutcome_frameInstr, execWith_device]
    have hx := pollCase_frame (s := s) hp hrx (exec_frame_cases t p c _)
    revert hx
    generalize exec (frameInstr .device t p c) (afterFrame t p c rest (startPoll s)) = o
    cases o <;> exact id

theorem poll_next_cases {s t : State} (h : poll .device s = .next t) : PollCase s (.next t) (pollOutcome .device s) :=
  h ▸ poll_cases s

end Sys2Proof.Machine
end

