-- ==== Sys2Proof/Laws/Sequencer.lean ====
section
/-!
SUPPORT. The register-store mux (42_dispatch.md R120) and each transition of the sequencer (40_framing.md R89), said once.
-/

namespace Sys2Proof.Machine

/-! ## The mux -/

theorem isNative_iff (t : Byte) : Config.device.isNative t = true ↔
    t = 0x0D#8 ∨ t = 0x0E#8 ∨ t = 0x0F#8 ∨ t = 0x10#8 ∨ t = 0x11#8 ∨ t = 0x12#8 ∨ t = 0x14#8 := by
  revert t; decide

/-- we_last: the checksum passed, and the length is exact for a fixed-width tag, or the hook answered true. -/
theorem writeEnables_weLast {p : List Byte} (hp : p.length ≤ 255) (ok : Bool) (t : Byte) (k : Bool) :
    (writeEnables .device ok t (lenByte p) k).weLast =
      (ok && if Config.device.isNative t then decide (∀ w, requiredLen t = some w → p.length = w) else k) := by
  have hl := lenByte_toNat hp
  cases hn : Config.device.isNative t with
  | false =>
    obtain ⟨h1, h2, h3, h4, h5, h6, h7⟩ := (isNative_eq_false_iff t).mp hn
    simp [writeEnables, Config.device_tagUint16, Config.device_tagInt16, Config.device_tagInt8,
      Config.device_tagInt32, Config.device_tagFloat32, Config.device_tagUint32, Config.device_tagStruct, h1, h2, h3,
      h4, h5, h6, h7, hn]
  | true =>
    rcases (isNative_iff t).mp hn with h | h | h | h | h | h | h <;> subst h <;> cases ok <;>
      simp [writeEnables, Config.device_tagUint16, Config.device_tagInt16, Config.device_tagInt8,
        Config.device_tagInt32, Config.device_tagFloat32, Config.device_tagUint32, Config.device_tagStruct,
        requiredLen, hl, Config.device_wI8, Config.device_wI16, Config.device_wU16, Config.device_wI32,
        Config.device_wU32, Config.device_wF32, hn]
    all_goals rfl

/-- With every enable off the mux changes nothing. -/
theorem muxStore_off {ok : Bool} {t l : Byte} {k : Bool} (stage : List Byte) (r : Retained)
    (h : (writeEnables .device ok t l k).weLast = false) : muxStore .device (writeEnables .device ok t l k) t stage r = r := by
  have hw : (writeEnables .device ok t l k).weLast = ((writeEnables .device ok t l k).weI8 || (writeEnables .device ok t l k).weI16 ||
      (writeEnables .device ok t l k).weU16 || (writeEnables .device ok t l k).weI32 || (writeEnables .device ok t l k).weU32 ||
      (writeEnables .device ok t l k).weF32 || (writeEnables .device ok t l k).weRaw || (ok && !Config.device.isNative t && k)) := rfl
  rw [hw] at h
  simp only [Bool.or_eq_false_iff] at h
  simp [muxStore, gated, hw, h]

/-- With we_last on the mux makes the accepted packet's whole change. -/
theorem muxStore_on {ok : Bool} {t l : Byte} {k : Bool} (stage : List Byte) (r : Retained)
    (h : (writeEnables .device ok t l k).weLast = true) :
    muxStore .device (writeEnables .device ok t l k) t stage r = acceptedEffect t stage r := by
  revert h
  cases hn : Config.device.isNative t with
  | false =>
    obtain ⟨h1, h2, h3, h4, h5, h6, h7⟩ := (isNative_eq_false_iff t).mp hn
    cases ok <;> cases k <;>
      simp [writeEnables, muxStore, gated, acceptedEffect, Config.device_tagUint16, Config.device_tagInt16,
        Config.device_tagInt8, Config.device_tagInt32, Config.device_tagFloat32, Config.device_tagUint32,
        Config.device_tagStruct, h1, h2, h3, h4, h5, h6, h7, hn]
  | true =>
    rcases (isNative_iff t).mp hn with h | h | h | h | h | h | h <;> subst h <;> cases ok <;>
      simp [writeEnables, muxStore, gated, acceptedEffect, Config.device_tagUint16, Config.device_tagInt16,
        Config.device_tagInt8, Config.device_tagInt32, Config.device_tagFloat32, Config.device_tagUint32,
        Config.device_tagStruct, Config.device_wI8, Config.device_wI16, Config.device_wU16, Config.device_wI32,
        Config.device_wU32, Config.device_wF32, hn, operandRaw, Config.device_rawCap, operand8, operand16, operand32,
        le16, le32, byteAt, Nat.min_comm]
    all_goals (intro h; simp [h])

theorem muxStore_lastCmd {we : WriteEnables} {t : Byte} {stage : List Byte} {r : Retained} (h : we.weLast = true) :
    (muxStore .device we t stage r).lastCmd = t := by
  simp [muxStore, gated, h]

/-! ## The decisions -/

/-- The state after the mux has accepted. -/
def afterMux (s : State) : State :=
  { s with
    retained := acceptedEffect s.transient.fType s.transient.stage s.retained
    transient := { s.transient with handled := true, seq := .dispatchedAccepted } }

/-- All that the mux can decide. -/
theorem dispatchMux_cases (k : Bool) (e : ErrorKind) (s : State) :
    ((writeEnables .device s.transient.crcOk s.transient.fType s.transient.fLen k).weLast = false ∧
      dispatchMux .device k e s = rejectNow .device e s) ∨
    ((writeEnables .device s.transient.crcOk s.transient.fType s.transient.fLen k).weLast = true ∧
      dispatchMux .device k e s = afterMux s) := by
  cases h : (writeEnables .device s.transient.crcOk s.transient.fType s.transient.fLen k).weLast with
  | false => exact .inl ⟨rfl, by simp [dispatchMux, h]⟩
  | true => exact .inr ⟨rfl, by simp only [dispatchMux, h, if_true, muxStore_on _ _ h, afterMux]⟩

/-- All that can be decided once the whole frame is in. -/
theorem decideFrame_cases (s : State) :
    (s.transient.crcOk = false ∧ decideFrame .device s = rejectNow .device .crc s) ∨
    (s.transient.crcOk = true ∧ Config.device.isNative s.transient.fType = true ∧ decideFrame .device s = dispatchMux .device false .len s) ∨
    (s.transient.crcOk = true ∧ Config.device.isNative s.transient.fType = false ∧ s.retained.hook = none ∧
      decideFrame .device s = rejectNow .device .unk s) ∨
    (s.transient.crcOk = true ∧ Config.device.isNative s.transient.fType = false ∧ s.retained.hook ≠ none ∧
      decideFrame .device s = { s with transient := { s.transient with hookReq := true } }) := by
  rw [decideFrame]
  cases s.transient.crcOk <;> cases Config.device.isNative s.transient.fType <;> by_cases h3 : s.retained.hook = none <;>
    simp [h3]

/-! ## One transition -/

theorem tick_idle {s : State} (h1 : s.transient.busy = false) (h2 : s.transient.seq = .idle) : tick .device s = .next s := by
  simp [tick, h1, h2]

theorem tick_selector {s : State} (h1 : s.transient.busy = true) (h2 : s.transient.seq = .idle) :
    tick .device s = readTransition (readSelector .device s) fun s1 => if sendVariable .device s1 then enterHeader s1 else endPoll s1 := by
  simp [tick, h1, h2]

theorem tick_header {s : State} (h : s.transient.seq = .headerRead) :
    tick .device s = readTransition (readHeader .device s) id := by
  simp [tick, h]

theorem tick_payload {s : State} (h : s.transient.seq = .payloadRead) : tick .device s = readTransition (readPayload .device s) id := by
  simp [tick, h]

theorem tick_checksum {s : State} (h1 : s.transient.seq = .checksumRead) (h2 : s.transient.hookReq = false) :
    tick .device s = readTransition (readChecksum .device s) fun s1 => decideFrame .device (latchFlags .device s1) := by
  simp [tick, h1, h2]

theorem tick_hook {s : State} (h1 : s.transient.seq = .checksumRead) (h2 : s.transient.hookReq = true) :
    tick .device s = awaitHook .device s := by
  simp [tick, h1, h2]

theorem tick_accepted {s : State} (h : s.transient.seq = .dispatchedAccepted) :
    tick .device s = .next (endPoll (sendAck .device s)) := by
  simp [tick, h]

theorem tick_rejected {s : State} (h : s.transient.seq = .dispatchedRejected) : tick .device s = .next (endPoll s) := by
  simp [tick, h]

/-- All that the transition out of Idle can do, a poll having been started. -/
theorem tick_selector_cases {s : State} (h1 : s.transient.busy = true) (h2 : s.transient.seq = .idle) :
    (∃ rest, s.env.rx = .byte Config.device.selSendVariable :: rest ∧
      tick .device s = .next (enterHeader (afterSelector .device Config.device.selSendVariable rest s))) ∨
    (∃ sel rest, sel ≠ Config.device.selSendVariable ∧ s.env.rx = .byte sel :: rest ∧
      tick .device s = .next (endPoll (afterSelector .device sel rest s))) ∨
    (∃ rest, s.env.rx = .fail :: rest ∧ tick .device s = .next (endPoll (afterRecv 1 .fail rest s))) ∨
    (s.env.rx = [] ∧ tick .device s = .fault .transportUnanswered) := by
  rw [tick_selector h1 h2]
  rcases readSelector_cases s with ⟨sel, rest, hrx, h⟩ | ⟨rest, hrx, h⟩ | ⟨hrx, h⟩
  · by_cases hs : sel = Config.device.selSendVariable
    · subst hs
      exact .inl ⟨rest, hrx, by rw [h, readTransition, sendVariable_afterSelector, if_pos (by simp)]⟩
    · exact .inr (.inl ⟨sel, rest, hs, hrx, by
        rw [h, readTransition, sendVariable_afterSelector, if_neg (by simpa using hs)]⟩)
  · exact .inr (.inr (.inl ⟨rest, hrx, by rw [h]; rfl⟩))
  · exact .inr (.inr (.inr ⟨hrx, by rw [h]; rfl⟩))

/-- All that the wait for the hook can do. -/
theorem awaitHook_cases (s : State) :
    (∃ ports b rest, s.env.hookIn = List.map HookEvent.reads ports ++ .answers b :: rest ∧
      awaitHook .device s = .next (dispatchMux .device b .unk (hookAnswered s.transient.fType b rest s))) ∨
    (∃ ports r rest, s.env.hookIn = List.map HookEvent.reads ports ++ .reenters r :: rest ∧
      awaitHook .device s = .refused (.hookReentry r)) ∨
    (∃ ports, s.env.hookIn = List.map HookEvent.reads ports ∧ awaitHook .device s = .fault .hookUnanswered) := by
  rcases runHook_cases s.env.hookIn with ⟨ps, b, rest, he, h⟩ | ⟨ps, r, rest, he, h⟩ | ⟨ps, he, h⟩
  · exact .inl ⟨ps, b, rest, he, by rw [awaitHook, h]⟩
  · exact .inr (.inl ⟨ps, r, rest, he, by rw [awaitHook, h]⟩)
  · exact .inr (.inr ⟨ps, he, by rw [awaitHook, h]⟩)

/-! ## Several transitions -/

theorem inPoll_of_seq {s : State} (h : s.transient.seq ≠ .idle) : s.inPoll = true := by simp [State.inPoll, h]

theorem tickUntilIdle_next {n : Nat} {s s1 : State} (hs : s.inPoll = true) (h : tick .device s = .next s1) :
    tickUntilIdle .device (n + 1) s = tickUntilIdle .device n s1 := by
  simp [tickUntilIdle, hs, h]

theorem tickUntilIdle_fault {n : Nat} {s : State} {f : Fault} (hs : s.inPoll = true) (h : tick .device s = .fault f) :
    tickUntilIdle .device (n + 1) s = .fault f := by
  simp [tickUntilIdle, hs, h]

theorem tickUntilIdle_refused {n : Nat} {s : State} {r : Refusal} (hs : s.inPoll = true) (h : tick .device s = .refused r) :
    tickUntilIdle .device (n + 1) s = .refused r := by
  simp [tickUntilIdle, hs, h]

theorem tickUntilIdle_done {n : Nat} {s : State} (hs : s.inPoll = false) : tickUntilIdle .device n s = .next s := by
  cases n <;> simp [tickUntilIdle, hs]

end Sys2Proof.Machine
end

