-- ==== Sys2Proof/Tests/Slice0.lean ====
section
/-!
SUPPORT. Tests. Every expected value is the spec's: its encodings (30_encoding.md), its reference values (41_checksum.md
R104) or its vectors (95_test_vectors.md), named at each group. Then a witness for the hypotheses of each obligation.
-/

-- One theorem at a time: kernel evaluations in parallel take a thread each.
set_option Elab.async false

namespace Sys2Proof.Tests

open Sys2Proof Sys2Proof.Machine

/-! ## Helpers -/

/-- A byte sequence from numbers. -/
def bytes (ns : List Nat) : List Byte := ns.map (BitVec.ofNat 8)

/-- Reset, one poll asked for, the receive port offering `rx`. -/
def polling (rx : List RxEvent) : State := { State.reset with env := { owner := [.poll], rx, hookIn := [] } }

/-- The same with whole bytes on the port. -/
def ready (ns : List Nat) : State := polling (onPort (bytes ns))

/-- `s` with hook 7 installed, which does `es` when asked. -/
def hooked (es : List HookEvent) (s : State) : State :=
  { s with retained := { s.retained with hook := some 7 }, env := { s.env with hookIn := es } }

/-- The retained state and the ACKs and errors after one step. -/
def result (s : State) : Option (Retained × List (List Byte) × List Byte) :=
  (nextState? (step s)).map fun t => (t.retained, sends t.trace, errs t.trace)

/-- An accepted packet: the retained state `r`, one ACK, no error. -/
def ack (r : Retained) : Option (Retained × List (List Byte) × List Byte) := some (r, [[0x30#8]], [])

/-- A rejected packet after reset: nothing retained, no ACK, one error. -/
def rejected (t : Nat) : Option (Retained × List (List Byte) × List Byte) :=
  some ((Retained.reset .device), [], [BitVec.ofNat 8 t])

/-- The fault of an outcome, if it is one. -/
def stop? : StepResult → Option Fault
  | .fault f => some f
  | .next _ => none
  | .refused _ => none

/-- The refusal of an outcome, if it is one. -/
def refusal? : StepResult → Option Refusal
  | .refused r => some r
  | .next _ => none
  | .fault _ => none

/-! ## WellFormed refuses each ill-formed term (30_encoding.md R60 to R63) -/

/-- A payload one byte too long for LEN. -/
def tooLong : List Byte := List.replicate 256 0x00#8

theorem test_wellFormed_refuses_long_setU16 : (Instr.setU16 tooLong 0x00#8).wellFormed .device = false := by
  decide +kernel
theorem test_wellFormed_refuses_long_setI16 : (Instr.setI16 tooLong 0x00#8).wellFormed .device = false := by
  decide +kernel
theorem test_wellFormed_refuses_long_setI8 : (Instr.setI8 tooLong 0x00#8).wellFormed .device = false := by
  decide +kernel
theorem test_wellFormed_refuses_long_setI32 : (Instr.setI32 tooLong 0x00#8).wellFormed .device = false := by
  decide +kernel
theorem test_wellFormed_refuses_long_setF32 : (Instr.setF32 tooLong 0x00#8).wellFormed .device = false := by
  decide +kernel
theorem test_wellFormed_refuses_long_setU32 : (Instr.setU32 tooLong 0x00#8).wellFormed .device = false := by
  decide +kernel
theorem test_wellFormed_refuses_long_setStruct : (Instr.setStruct tooLong 0x00#8).wellFormed .device = false := by
  decide +kernel
theorem test_wellFormed_refuses_long_ext : (Instr.ext 0x99#8 tooLong 0x00#8).wellFormed .device = false := by
  decide +kernel
theorem test_wellFormed_refuses_native_ext : (Instr.ext 0x0F#8 [] 0x00#8).wellFormed .device = false := by
  decide +kernel
theorem test_wellFormed_refuses_send_variable_selector : (Instr.ignoreSelector 0x01#8).wellFormed .device = false := by
  decide +kernel
theorem test_wellFormed_admits_255 : (Instr.setStruct (List.replicate 255 0x00#8) 0x00#8).wellFormed .device = true := by
  decide +kernel

/-! ## Words written out from the spec's encodings (30_encoding.md R60, R67) decode to their instructions -/

theorem test_decode_setU16 : decode .device (bytes [0x01, 0x0D, 0x02, 0x34, 0x12, 0xE5]) =
    .ok (.setU16 (bytes [0x34, 0x12]) 0xE5#8, []) := by decide +kernel
theorem test_decode_setI16 : decode .device (bytes [0x01, 0x0E, 0x02, 0x34, 0x12, 0x6D]) =
    .ok (.setI16 (bytes [0x34, 0x12]) 0x6D#8, []) := by decide +kernel
theorem test_decode_setI8 : decode .device (bytes [0x01, 0x0F, 0x01, 0x2A, 0xC6]) =
    .ok (.setI8 (bytes [0x2A]) 0xC6#8, []) := by decide +kernel
theorem test_decode_setI32 : decode .device (bytes [0x01, 0x10, 0x04, 0x78, 0x56, 0x34, 0x12, 0x6D]) =
    .ok (.setI32 (bytes [0x78, 0x56, 0x34, 0x12]) 0x6D#8, []) := by decide +kernel
theorem test_decode_setF32 : decode .device (bytes [0x01, 0x11, 0x04, 0x00, 0x00, 0x80, 0x3F, 0xA3]) =
    .ok (.setF32 (bytes [0x00, 0x00, 0x80, 0x3F]) 0xA3#8, []) := by decide +kernel
theorem test_decode_setU32 : decode .device (bytes [0x01, 0x12, 0x04, 0xEF, 0xBE, 0xAD, 0xDE, 0x9E]) =
    .ok (.setU32 (bytes [0xEF, 0xBE, 0xAD, 0xDE]) 0x9E#8, []) := by decide +kernel
theorem test_decode_setStruct : decode .device (bytes [0x01, 0x14, 0x03, 0x01, 0x02, 0x03, 0x33]) =
    .ok (.setStruct (bytes [0x01, 0x02, 0x03]) 0x33#8, []) := by decide +kernel
theorem test_decode_ext : decode .device (bytes [0x01, 0x99, 0x02, 0xDE, 0xAD, 0xEB]) =
    .ok (.ext 0x99#8 (bytes [0xDE, 0xAD]) 0xEB#8, []) := by decide +kernel
theorem test_decode_ext_between_natives : decode .device (bytes [0x01, 0x13, 0x00, 0x2A]) =
    .ok (.ext 0x13#8 [] 0x2A#8, []) := by decide +kernel
theorem test_decode_ignoreSelector : decode .device (bytes [0x00, 0x55]) =
    .ok (.ignoreSelector 0x00#8, bytes [0x55]) := by decide +kernel
theorem test_decode_first_packet_only : decode .device (bytes [0x01, 0x0F, 0x01, 0x2A, 0xC6, 0x01, 0x0D]) =
    .ok (.setI8 (bytes [0x2A]) 0xC6#8, bytes [0x01, 0x0D]) := by decide +kernel
theorem test_decode_nothing : decode .device [] = .error .noSelector := by decide +kernel
theorem test_decode_one_header_byte : decode .device (bytes [0x01, 0x0F]) = .error .noHeader := by decide +kernel
theorem test_decode_short_payload : decode .device (bytes [0x01, 0x12, 0x04, 0xEF]) = .error .shortPayload := by
  decide +kernel
theorem test_decode_no_checksum : decode .device (bytes [0x01, 0x0F, 0x01, 0x2A]) = .error .noChecksum := by
  decide +kernel
/-- R74, `PKT 0x0F [2A]`. -/
theorem test_packet_notation : packet .device 0x0F#8 (bytes [0x2A]) = bytes [0x01, 0x0F, 0x01, 0x2A, 0xC6] := by
  decide +kernel
/-- The rows of R75, as spec/opcode_table.json gives them. -/
theorem test_opcode_table : (opcodeTable .device).map (fun r => (r.mnemonic, r.matchBits, r.mask)) =
    [("SET_U16", 0x010D00#24, 0xFFFF00#24), ("SET_I16", 0x010E00#24, 0xFFFF00#24),
     ("SET_I8", 0x010F00#24, 0xFFFF00#24), ("SET_I32", 0x011000#24, 0xFFFF00#24),
     ("SET_F32", 0x011100#24, 0xFFFF00#24), ("SET_U32", 0x011200#24, 0xFFFF00#24),
     ("SET_STRUCT", 0x011400#24, 0xFFFF00#24), ("EXT", 0x010000#24, 0xFF0000#24),
     ("IGNORE_SELECTOR", 0x000000#24, 0x000000#24)] := by decide +kernel
/-- R75: the first match wins, so a native tag is not EXT; the words are the table's own. -/
theorem test_table_setI8 : decodeTableWord 24 0x010F00 = some (.setI8 [] 0x00#8) := by decide +kernel
theorem test_table_setI32 : decodeTableWord 24 0x011004 = some (.setI32 (bytes [0, 0, 0, 0]) 0x00#8) := by
  decide +kernel
theorem test_table_ext : decodeTableWord 24 0x010000 = some (.ext 0x00#8 [] 0x00#8) := by decide +kernel
theorem test_table_ignoreSelector : decodeTableWord 24 0x000000 = some (.ignoreSelector 0x00#8) := by decide +kernel
theorem test_table_word_runs : (nextState? (step (State.reset.withFetchWord 24 0x011400))).map
    (fun t => (t.trace.length, errs t.trace)) = some (4, [0x14#8]) := by decide +kernel

/-! ## The checksum (41_checksum.md R104; 95_test_vectors.md 2.1) -/

/-- The table `T` of R104, in its rows. -/
def tableT : List Byte :=
  bytes [0x00, 0x5E, 0xBC, 0xE2, 0x61, 0x3F, 0xDD, 0x83, 0xC2, 0x9C, 0x7E, 0x20, 0xA3, 0xFD, 0x1F, 0x41] ++
  bytes [0x9D, 0xC3, 0x21, 0x7F, 0xFC, 0xA2, 0x40, 0x1E, 0x5F, 0x01, 0xE3, 0xBD, 0x3E, 0x60, 0x82, 0xDC] ++
  bytes [0x23, 0x7D, 0x9F, 0xC1, 0x42, 0x1C, 0xFE, 0xA0, 0xE1, 0xBF, 0x5D, 0x03, 0x80, 0xDE, 0x3C, 0x62] ++
  bytes [0xBE, 0xE0, 0x02, 0x5C, 0xDF, 0x81, 0x63, 0x3D, 0x7C, 0x22, 0xC0, 0x9E, 0x1D, 0x43, 0xA1, 0xFF] ++
  bytes [0x46, 0x18, 0xFA, 0xA4, 0x27, 0x79, 0x9B, 0xC5, 0x84, 0xDA, 0x38, 0x66, 0xE5, 0xBB, 0x59, 0x07] ++
  bytes [0xDB, 0x85, 0x67, 0x39, 0xBA, 0xE4, 0x06, 0x58, 0x19, 0x47, 0xA5, 0xFB, 0x78, 0x26, 0xC4, 0x9A] ++
  bytes [0x65, 0x3B, 0xD9, 0x87, 0x04, 0x5A, 0xB8, 0xE6, 0xA7, 0xF9, 0x1B, 0x45, 0xC6, 0x98, 0x7A, 0x24] ++
  bytes [0xF8, 0xA6, 0x44, 0x1A, 0x99, 0xC7, 0x25, 0x7B, 0x3A, 0x64, 0x86, 0xD8, 0x5B, 0x05, 0xE7, 0xB9] ++
  bytes [0x8C, 0xD2, 0x30, 0x6E, 0xED, 0xB3, 0x51, 0x0F, 0x4E, 0x10, 0xF2, 0xAC, 0x2F, 0x71, 0x93, 0xCD] ++
  bytes [0x11, 0x4F, 0xAD, 0xF3, 0x70, 0x2E, 0xCC, 0x92, 0xD3, 0x8D, 0x6F, 0x31, 0xB2, 0xEC, 0x0E, 0x50] ++
  bytes [0xAF, 0xF1, 0x13, 0x4D, 0xCE, 0x90, 0x72, 0x2C, 0x6D, 0x33, 0xD1, 0x8F, 0x0C, 0x52, 0xB0, 0xEE] ++
  bytes [0x32, 0x6C, 0x8E, 0xD0, 0x53, 0x0D, 0xEF, 0xB1, 0xF0, 0xAE, 0x4C, 0x12, 0x91, 0xCF, 0x2D, 0x73] ++
  bytes [0xCA, 0x94, 0x76, 0x28, 0xAB, 0xF5, 0x17, 0x49, 0x08, 0x56, 0xB4, 0xEA, 0x69, 0x37, 0xD5, 0x8B] ++
  bytes [0x57, 0x09, 0xEB, 0xB5, 0x36, 0x68, 0x8A, 0xD4, 0x95, 0xCB, 0x29, 0x77, 0xF4, 0xAA, 0x48, 0x16] ++
  bytes [0xE9, 0xB7, 0x55, 0x0B, 0x88, 0xD6, 0x34, 0x6A, 0x2B, 0x75, 0x97, 0xC9, 0x4A, 0x14, 0xF6, 0xA8] ++
  bytes [0x74, 0x2A, 0xC8, 0x96, 0x15, 0x4B, 0xA9, 0xF7, 0xB6, 0xE8, 0x0A, 0x54, 0xD7, 0x89, 0x6B, 0x35]

theorem test_crc_table : (List.range 256).map (fun v => crc8Update .device 0x00#8 (BitVec.ofNat 8 v)) = tableT := by
  decide +kernel
theorem test_crc_intermediate : [1, 2, 3, 4, 5, 6, 7, 8].map (fun n => crcShifts .device n 0x0F#8) =
    bytes [0x8B, 0xC9, 0xE8, 0x74, 0x3A, 0x1D, 0x82, 0x41] := by decide +kernel
theorem test_crc_seed : crc8Update .device 0xFF#8 0x00#8 = 0x35#8 := by decide +kernel
theorem test_crc_bit_serial : crc8UpdateBitSerial .device 0x00#8 0x2A#8 = 0x5D#8 := by decide +kernel
theorem test_crc_empty : crc8 .device 0x00#8 [] = 0x00#8 := by decide +kernel
theorem test_crc_header : crc8 .device 0x00#8 (bytes [0x0F, 0x01]) = 0x46#8 := by decide +kernel
theorem test_crc_chained : crc8 .device 0x46#8 (bytes [0x2A]) = 0xC6#8 := by decide +kernel
theorem test_crc_payload_chained : crc8 .device 0x1C#8 (bytes [0xEF, 0xBE, 0xAD, 0xDE]) = 0x9E#8 := by decide +kernel
theorem test_crc_residue : crc8 .device 0x00#8 (bytes [0x0F, 0x01, 0x2A, 0xC6]) = 0x00#8 := by decide +kernel
/-- The published check value of R104. -/
theorem test_crc_published : crc8 .device 0x00#8 (bytes [0x31, 0x32, 0x33, 0x34, 0x35, 0x36, 0x37, 0x38, 0x39]) = 0xA1#8 := by
  decide +kernel

/-! ## One poll of each command (95_test_vectors.md 2.3 to 2.7) -/

theorem test_setI8_stores : result (ready [0x01, 0x0F, 0x01, 0x80, 0x17]) =
    ack { Retained.reset .device with regI8 := 0x80#8, lastCmd := 0x0F#8 } := by decide +kernel
theorem test_setI8_length : result (ready [0x01, 0x0F, 0x02, 0x01, 0x02, 0xAD]) =
    rejected 0x0F := by decide +kernel
theorem test_setI16_little_endian : result (ready [0x01, 0x0E, 0x02, 0x34, 0x12, 0x6D]) =
    ack { Retained.reset .device with regI16 := 0x1234#16, lastCmd := 0x0E#8 } := by decide +kernel
theorem test_setI16_length : result (ready [0x01, 0x0E, 0x01, 0x05, 0x0F]) =
    rejected 0x0E := by decide +kernel
theorem test_setU16_little_endian : result (ready [0x01, 0x0D, 0x02, 0x34, 0x12, 0xE5]) =
    ack { Retained.reset .device with regU16 := 0x1234#16, lastCmd := 0x0D#8 } := by decide +kernel
theorem test_setU16_length : result (ready [0x01, 0x0D, 0x03, 0x01, 0x02, 0x03, 0xBC]) =
    rejected 0x0D := by decide +kernel
theorem test_setI32_little_endian : result (ready [0x01, 0x10, 0x04, 0x78, 0x56, 0x34, 0x12, 0x6D]) =
    ack { Retained.reset .device with regI32 := 0x12345678#32, lastCmd := 0x10#8 } := by decide +kernel
theorem test_setI32_length : result (ready [0x01, 0x10, 0x02, 0x01, 0x02, 0x0F]) =
    rejected 0x10 := by decide +kernel
theorem test_setU32_little_endian : result (ready [0x01, 0x12, 0x04, 0xEF, 0xBE, 0xAD, 0xDE, 0x9E]) =
    ack { Retained.reset .device with regU32 := 0xDEADBEEF#32, lastCmd := 0x12#8 } := by decide +kernel
theorem test_setU32_length : result (ready [0x01, 0x12, 0x03, 0x11, 0x22, 0x33, 0x9A]) =
    rejected 0x12 := by decide +kernel
/-- The signalling NaN is not quieted (R124). -/
theorem test_setF32_pattern : result (ready [0x01, 0x11, 0x04, 0x01, 0x00, 0x80, 0x7F, 0x6A]) =
    ack { Retained.reset .device with regF32 := 0x7F800001#32, lastCmd := 0x11#8 } := by decide +kernel
theorem test_setF32_length : result (ready [0x01, 0x11, 0x03, 0x00, 0x00, 0x80, 0xB5]) =
    rejected 0x11 := by decide +kernel
/-- Scenario 4: 40 bytes sent, 32 stored. -/
theorem test_setStruct_truncates :
    result (polling (onPort (bytes ([0x01, 0x14, 0x28] ++ (List.range 40).map (0xA0 + ·) ++ [0x9C])))) =
    ack { Retained.reset .device with
      rawBuf := bytes ((List.range 32).map (0xA0 + ·)), rawLen := 32#6, lastCmd := 0x14#8 } := by decide +kernel
/-- 33 bytes: the last is dropped without an error, having entered the checksum. -/
theorem test_setStruct_drops_byte_32 :
    (result (polling (onPort (bytes ([0x01, 0x14, 0x21] ++ List.range 33 ++ [0x67]))))).map
      (fun r => (r.1.rawLen, r.1.rawBuf.getD 31 0x00#8, r.2.1)) = some (32#6, 0x1F#8, [[0x30#8]]) := by decide +kernel
/-- The events after the receive events of a poll of `01 99 00 chk`, hook 7 installed and doing `es`. -/
def extEvents (chk : Nat) (es : List HookEvent) : Option (List Event) :=
  (nextState? (step (hooked es (ready [0x01, 0x99, 0x00, chk])))).map fun t => t.trace.drop 3

/-- Scenario 6: nothing but LAST_CMD changes. -/
theorem test_ext_accepted :
    (nextState? (step (hooked [.reads .lastCmd, .answers true] (ready [0x01, 0x99, 0x00, 0x71])))).map
      (fun t => (t.retained, t.trace.drop 3)) =
    some ({ Retained.reset .device with lastCmd := 0x99#8, hook := some 7 }, [.hook 0x99#8 true, .send [0x30#8]]) := by
  decide +kernel
/-- Scenario 5, the hook's false, and 2.5: with a wrong checksum the hook is not asked. -/
theorem test_ext_rejected : result (ready [0x01, 0x99, 0x00, 0x71]) = rejected 0x99 ∧
    extEvents 0x71 [.answers false] = some [.hook 0x99#8 false, .err 0x99#8] ∧
    extEvents 0x70 [.answers true] = some [.err 0x99#8] := by decide +kernel
theorem test_ignoreSelector : (nextState? (step (ready [0x02, 0x0F]))).map (fun t => (t.retained, t.trace, t.env.rx)) =
    some ((Retained.reset .device), [.recv 1 (.ok [0x02#8])], onPort [0x0F#8]) := by decide +kernel
/-- Scenario 2, and the byte sum, which is not the checksum. -/
theorem test_checksum_mismatch : [0xC7, 0x39, 0x3A].map (fun c => result (ready [0x01, 0x0F, 0x01, 0x2A, c])) =
    [rejected 0x0F, rejected 0x0F, rejected 0x0F] := by decide +kernel

/-! ## The Packet Receiver (95_test_vectors.md 2.2) -/

theorem test_no_data : (nextState? (step (polling [.fail]))).map State.trace = some [.recv 1 .fail] := by decide +kernel
theorem test_header_fails : result (polling [.byte 0x01#8, .byte 0x0F#8, .fail]) = rejected 0x00 := by decide +kernel
theorem test_payload_fails : result (polling [.byte 0x01#8, .byte 0x12#8, .byte 0x04#8, .fail]) = rejected 0x12 := by
  decide +kernel
theorem test_checksum_byte_fails :
    result (polling [.byte 0x01#8, .byte 0x14#8, .byte 0x00#8, .fail]) = rejected 0x14 := by decide +kernel
theorem test_empty_struct_makes_three_requests :
    (nextState? (step (ready [0x01, 0x14, 0x00, 0xD7]))).map (fun t => (recvs t.trace).map Prod.fst) =
    some [1, 2, 1] := by decide +kernel
theorem test_outcomes : [pollOutcome .device (polling [.fail]), pollOutcome .device (ready [0x02]),
      pollOutcome .device (polling [.byte 0x01#8, .fail]), pollOutcome .device (ready [0x01, 0x99, 0x00, 0x71]),
      pollOutcome .device (ready [0x01, 0x14, 0x00, 0xD7])] =
    [some .noFrame, some .otherSelector, some (.readFailure 0x00#8), some (.rejected 0x99#8),
      some (.accepted 0x14#8)] := by decide +kernel
theorem test_silence_hangs : stop? (step (ready [0x01, 0x0F])) = some .transportUnanswered := by decide +kernel
theorem test_silent_hook_hangs : stop? (step (hooked [] (ready [0x01, 0x99, 0x00, 0x71]))) = some .hookUnanswered := by
  decide +kernel

/-! ## Readings (95_test_vectors.md 2.3; log 21) and reset (2.8) -/

theorem test_read_signed : [readI8 { Retained.reset .device with regI8 := 0x80#8 },
    readI16 { Retained.reset .device with regI16 := 0xFFFE#16 },
    readI32 { Retained.reset .device with regI32 := 0x80000000#32 }] = [-128, -2, -2147483648] := by
  decide +kernel
theorem test_read_unsigned : [readU16 { Retained.reset .device with regU16 := 0x8000#16 },
    readU32 { Retained.reset .device with regU32 := 0xDEADBEEF#32 }] = [32768, 3735928559] := by decide +kernel
/-- -2.5 is 0xC0200000: sign 1, exponent 128, fraction 0.25. -/
theorem test_float_fields : (f32Sign 0xC0200000#32, f32Exponent 0xC0200000#32, f32Fraction 0xC0200000#32) =
    (true, 128#8, 0x200000#23) := by decide +kernel
theorem test_le_bytes : (leBytes8 0x2A#8, leBytes16 0x1234#16, leBytes32 0xDEADBEEF#32) =
    (bytes [0x2A], bytes [0x34, 0x12], bytes [0xEF, 0xBE, 0xAD, 0xDE]) := by decide +kernel
theorem test_reset : (State.reset.retained.regI8, State.reset.retained.lastCmd, State.reset.retained.rawLen,
    State.reset.retained.hook, State.reset.transient.seq) = (0x00#8, 0x00#8, 0#6, none, .idle) := by decide +kernel

/-! ## The sequencer (40_framing.md R89) -/

/-- The poll is under way: the pulse has come, and the transitions so far are `n`. -/
def started (n : Nat) (s : State) : Option State := nextState? (tickUntilIdle .device n (startPoll s))

theorem test_sequencer_states : [0, 1, 2, 3, 4, 5].map
    (fun n => (started n (ready [0x01, 0x0F, 0x01, 0x2A, 0xC6])).map fun t => t.transient.seq) =
    [some .idle, some .headerRead, some .payloadRead, some .checksumRead, some .dispatchedAccepted, some .idle] := by
  decide +kernel
/-- The ports show the commit from DispatchedAccepted on, before the ACK (20_memory.md R51). -/
theorem test_sequencer_commit : (started 4 (ready [0x01, 0x0F, 0x01, 0x2A, 0xC6])).map
    (fun t => (t.retained.regI8, sends t.trace)) = some (0x2A#8, []) := by decide +kernel
theorem test_sequencer_waits : [0, 1, 2, 3, 4].map
    (fun n => (started n (hooked [] (ready [0x01, 0x99, 0x02, 0xDE, 0xAD, 0xEB]))).map waitsFor) =
    [some (.recv 1), some (.recv 2), some (.recv 2), some (.recv 1), some (.hook 0x99#8)] := by decide +kernel

/-! ## Witnesses: a concrete state and operands that meet the hypotheses of each obligation that has any -/

theorem next_of_isSome {o : StepResult} (h : (nextState? o).isSome = true) : ∃ t, o = .next t := by
  cases o with
  | next t => exact ⟨t, rfl⟩
  | fault f => simp [nextState?] at h
  | refused r => simp [nextState?] at h

/-- One poll for each outcome: no frame, foreign selector, the three read failures, rejected, accepted. -/
def oneOfEach : List State :=
  [polling [.fail], ready [0x02], polling [.byte 0x01#8, .fail], polling (onPort (bytes [0x01, 0x12, 0x04]) ++ [.fail]),
    polling (onPort (bytes [0x01, 0x14, 0x00]) ++ [.fail]), ready [0x01, 0x99, 0x00, 0x71],
    ready [0x01, 0x0F, 0x01, 0x2A, 0xC6]]

/-- The poll of SET_I8 42 (scenario 1). -/
def scenario1 : State := ready [0x01, 0x0F, 0x01, 0x2A, 0xC6]

/-- EXT 0x99 with no payload and the hook reading a port before it does `e`. -/
def asking (e : HookEvent) : State := hooked [.reads .lastCmd, e] (ready [0x01, 0x99, 0x00, 0x71])

/-- The largest payload. -/
def fullPayload : List Byte := List.replicate 255 0x5A#8

theorem fullPayload_length : fullPayload.length = 255 := by decide +kernel

theorem witness_DecodeOfEncodeIsTheInstruction :
    (Instr.ext 0x13#8 fullPayload 0x00#8).wellFormed .device = true ∧ (Instr.setI8 [] 0xFF#8).wellFormed .device = true ∧
    (Instr.ignoreSelector 0x00#8).wellFormed .device = true := by decide +kernel
theorem witness_EncodeOfDecodeIsTheBytes :
    decode .device (bytes [0x01, 0x14, 0x00, 0xD7, 0x99]) = .ok (.setStruct [] 0xD7#8, bytes [0x99]) := by decide +kernel
theorem witness_PacketEndsWhereLenSays :
    ([] : List Byte).length = (0x00#8).toNat ∧ fullPayload.length = (0xFF#8).toNat ∧ (0x00#8 : Byte) ≠ 0x01#8 := by
  decide +kernel
/-- Each reason at its boundary, and one byte more. -/
theorem witness_OnlyShortSequencesFailToDecode :
    [[], [0x01], [0x01, 0x0F], [0x01, 0x0F, 0x00], [0x01, 0x0F, 0x00, 0x18]].map
      (fun ns => (decode .device (bytes ns)).toOption.isSome) = [false, false, false, false, true] := by decide +kernel
theorem witness_DecodingFollowsTheOpcodeTable :
    decode .device (bytes [0x01, 0x13, 0x00, 0x2A]) = .ok (.ext 0x13#8 [] 0x2A#8, []) ∧
    decode .device (bytes [0x02, 0x0F, 0x01]) = .ok (.ignoreSelector 0x02#8, bytes [0x0F, 0x01]) := by decide +kernel

/-- SetI8StoresTheByteOrRejects to SetF32StoresThePatternOrRejects: both clauses, at the lengths on either side. -/
theorem witness_fixed_width_lengths : [0, 1, 2, 3, 4, 5, 255].map (fun n => (fullPayload.take n).length) =
    [0, 1, 2, 3, 4, 5, 255] := by decide +kernel
theorem witness_SetStructStoresThePrefix : [0, 31, 32, 33, 255].map (fun n => (fullPayload.take n).length) =
    [0, 31, 32, 33, 255] ∧
    ∃ t, exec (.setStruct [] (rightChecksum 0x14#8 [])) scenario1 = .next t :=
  ⟨by decide +kernel, next_of_isSome (by decide +kernel)⟩
/-- The tags next to native ones, without a hook; with one, each answer; a wrong checksum; a native tag with a hook. -/
theorem witness_ExtAsksTheHook :
    (∀ t ∈ bytes [0x00, 0x0C, 0x13, 0x15, 0x20, 0xFF],
      t ∉ [0x0D#8, 0x0E#8, 0x0F#8, 0x10#8, 0x11#8, 0x12#8, 0x14#8]) ∧ scenario1.retained.hook = none ∧
    0x70#8 ≠ rightChecksum 0x99#8 [] ∧
    (∃ u, exec (frameInstr .device 0x14#8 [] 0xD7#8) (asking (.answers true)) = .next u) ∧
    ∀ b, (asking (.answers b)).retained.hook = some 7 ∧
      (asking (.answers b)).env.hookIn = [Port.lastCmd].map HookEvent.reads ++ .answers b :: [] :=
  ⟨by decide +kernel, rfl, by decide +kernel, next_of_isSome (by decide +kernel), fun _ => ⟨rfl, rfl⟩⟩
theorem witness_ForeignSelectorIsIgnored : (0x00#8 : Byte) ≠ 0x01#8 ∧ (0xFF#8 : Byte) ≠ 0x01#8 ∧
    pollReady (ready [0x00]) [] ∧ (ready [0x00]).env.rx = .byte 0x00#8 :: [] :=
  ⟨by decide, by decide, ⟨rfl, rfl⟩, rfl⟩
theorem witness_ChecksumMismatchRejectsEveryCommand :
    (bytes [0x2A]).length ≤ 255 ∧ 0xC7#8 ≠ rightChecksum 0x0F#8 (bytes [0x2A]) ∧
    (nextState? (exec (frameInstr .device 0x0F#8 (bytes [0x2A]) 0xC7#8) scenario1)).isSome = true := by decide +kernel
/-- Each alternative: a native tag, no hook, each answer of a hook. -/
theorem witness_RegisterStoreMuxAgreesWithTheCommands :
    (bytes [0x2A]).length ≤ 255 ∧ 0x14#8 ∈ [0x0D#8, 0x0E#8, 0x0F#8, 0x10#8, 0x11#8, 0x12#8, 0x14#8] ∧
    scenario1.retained.hook = none ∧
    ∀ k, (asking (.answers k)).retained.hook ≠ none ∧
      (asking (.answers k)).env.hookIn = [Port.lastCmd].map HookEvent.reads ++ .answers k :: [] :=
  ⟨by decide, by decide, rfl, fun _ => ⟨nofun, rfl⟩⟩
/-- The three ends of an EXT that the hook decides. -/
theorem witness_OnlyTheHookCanStopAnInstruction :
    (∃ t, exec (.ext 0x99#8 [] 0x71#8) (asking (.answers true)) = .next t) ∧
    stop? (exec (.ext 0x99#8 [] 0x71#8) (asking (.reads .regI8))) = some .hookUnanswered ∧
    refusal? (exec (.ext 0x99#8 [] 0x71#8) (asking (.reenters .poll))) = some (.hookReentry .poll) :=
  ⟨next_of_isSome (by decide +kernel), by decide +kernel⟩
/-- An accepted fixed-width packet, and a request that fails. -/
theorem witness_FlagsSayWhatThePollFound :
    (∃ u, exec (frameInstr .device 0x0F#8 (bytes [0x2A]) 0xC6#8) scenario1 = .next u) ∧
    0xC6#8 = rightChecksum 0x0F#8 (bytes [0x2A]) ∧ requiredLen 0x0F#8 = some 1 ∧
    ∃ u, recv 1 (polling [.fail]) = some (.fail, u) :=
  ⟨next_of_isSome (by decide +kernel), by decide +kernel, rfl, _, rfl⟩
theorem witness_InstructionsLeaveTheReceiverAlone :
    ∃ t, exec (.setI8 (bytes [0x2A]) 0xC6#8) scenario1 = .next t := next_of_isSome (by decide +kernel)
theorem witness_StepRunsTheDecodedInstruction : pollReady scenario1 [] ∧
    decode .device (bytes [0x01, 0x0F, 0x01, 0x2A, 0xC6]) = .ok (.setI8 (bytes [0x2A]) 0xC6#8, []) ∧
    scenario1.env.rx = onPort (bytes [0x01, 0x0F, 0x01, 0x2A, 0xC6]) ++ [] := ⟨⟨rfl, rfl⟩, by decide +kernel, rfl⟩
theorem witness_NoDataIsNoError : pollReady (polling [.fail]) [] ∧ (polling [.fail]).env.rx = .fail :: [] :=
  ⟨⟨rfl, rfl⟩, rfl⟩
/-- The header read fails before its first byte, and before its second. -/
theorem witness_HeaderFailureHasTagZero : ∀ rx ∈ [[RxEvent.fail], [.byte 0x0F#8, .fail]],
    pollReady (polling (.byte 0x01#8 :: rx)) [] ∧ takeRx 2 rx = .answered .fail [] := by
  intro rx h
  simp only [List.mem_cons, List.not_mem_nil, or_false] at h
  rcases h with rfl | rfl <;> exact ⟨⟨rfl, rfl⟩, rfl⟩
/-- LEN 1 with no payload byte; LEN 4 with three. -/
theorem witness_PayloadFailureHasThePacketsTag :
    pollReady (polling (onPort [0x01#8, 0x0F#8, 0x01#8] ++ [.fail])) [] ∧
    takeRx (0x01#8).toNat [.fail] = .answered .fail [] ∧
    takeRx (0x04#8).toNat [.byte 1#8, .byte 2#8, .byte 3#8, .fail] = .answered .fail [] := ⟨⟨rfl, rfl⟩, rfl, rfl⟩
/-- LEN 0 and LEN 1. -/
theorem witness_ChecksumByteFailureHasThePacketsTag :
    ∀ p ∈ [[], [0x2A#8]],
      pollReady (polling (onPort ([0x01#8, 0x0F#8, BitVec.ofNat 8 p.length] ++ p) ++ [.fail])) [] ∧ p.length ≤ 255 := by
  intro p h
  simp only [List.mem_cons, List.not_mem_nil, or_false] at h
  rcases h with rfl | rfl <;> exact ⟨⟨rfl, rfl⟩, by decide⟩
/-- A smaller capacity than this hardware's, and a header that fails with this one. -/
theorem witness_CapacityRejectHasThePacketsTag :
    (polling (onPort [0x0F#8, 0xFF#8])).env.rx = onPort [0x0F#8, 0xFF#8] ++ [] ∧ ({ Config.device with stageCap := 254 } : Config).stageCap < (0xFF#8).toNat ∧
    ∃ o u, readHeader .device (polling [.fail]) = .ended o u := ⟨rfl, by decide, _, _, rfl⟩
/-- OutcomeDeterminesEventsAndState, AckExactlyWhenAccepted, LastCmdRecordsTheAcceptedTag, BytesConsumedByOutcome,
PollRunsToCompletion: a poll that ends, in each outcome. -/
theorem witness_poll_ends_in_every_outcome :
    oneOfEach.map (pollOutcome .device) = [some .noFrame, some .otherSelector, some (.readFailure 0x00#8),
      some (.readFailure 0x12#8), some (.readFailure 0x14#8), some (.rejected 0x99#8), some (.accepted 0x0F#8)] ∧
    ∀ s ∈ oneOfEach, ∃ t, poll .device s = .next t :=
  ⟨by decide +kernel, fun s hs => next_of_isSome (by
    have h : ∀ s ∈ oneOfEach, (nextState? (poll .device s)).isSome = true := by decide +kernel
    exact h s hs)⟩

theorem inv_polling (rx : List RxEvent) : Inv .device (polling rx) where
  raw := rfl
  stage := Nat.zero_le _
  idle := fun _ => rfl
  staged := by simp [polling, State.reset, State.resetWith, Transient.reset]
  asked := by simp [polling, State.reset, State.resetWith, Transient.reset]
  accepted := by simp [polling, State.reset, State.resetWith, Transient.reset]

/-- One poll that changes the state and one that does not. -/
theorem witness_MutationOnlyWithAValidPacketAndItsAck : ∀ s ∈ [scenario1, polling [.fail]],
    Inv .device s ∧ pollReady s [] ∧ ∃ t, step s = .next t := by
  intro s h
  simp only [List.mem_cons, List.not_mem_nil, or_false] at h
  rcases h with rfl | rfl
  · exact ⟨inv_polling _, ⟨rfl, rfl⟩, next_of_isSome (by decide +kernel)⟩
  · exact ⟨inv_polling _, ⟨rfl, rfl⟩, next_of_isSome (by decide +kernel)⟩
theorem witness_DecodingInvertsEncodingForEveryType :
    pollReady (ready [0x01, 0x0E, 0x02, 0x34, 0x12, 0x6D]) [] ∧
    (ready [0x01, 0x0E, 0x02, 0x34, 0x12, 0x6D]).env.rx =
      onPort (frameBytes 0x0E#8 [0x34#8, 0x12#8] (rightChecksum 0x0E#8 [0x34#8, 0x12#8])) ++ [] :=
  ⟨⟨rfl, rfl⟩, by decide +kernel⟩
theorem witness_PollIsBoundedAndEndsWhenAnswered :
    259 ≤ (polling (onPort (List.replicate 259 0xFF#8))).env.rx.length ∧
    (asking (.answers false)).env.hookIn = [Port.lastCmd].map HookEvent.reads ++ .answers false :: [] :=
  ⟨by decide +kernel, rfl⟩
theorem witness_UnansweredHookHangsTheBlock : (asking (.reads .regI8)).retained.hook = some 7 ∧
    (asking (.reads .regI8)).env.hookIn = [Port.lastCmd, .regI8].map HookEvent.reads := ⟨rfl, rfl⟩
theorem witness_HookReentryIsRefused : (asking (.reenters .reset)).retained.hook = some 7 ∧
    (asking (.reenters .reset)).env.hookIn = [Port.lastCmd].map HookEvent.reads ++ .reenters .reset :: [] :=
  ⟨rfl, rfl⟩
/-- Both sides: a port that falls silent inside a packet. -/
theorem witness_UnansweredRequestHangsThePoll :
    poll .device (ready [0x01, 0x0F]) = .fault .transportUnanswered ∧ decode .device (bytes [0x01, 0x0F]) = .error .noHeader :=
  ⟨rfl, by decide +kernel⟩

/-- Reset with one operation of the owner asked for. -/
def asked (op : OwnerOp) : State := { State.reset with env := { owner := [op], rx := [], hookIn := [] } }

/-- The same inside a poll: the header is being read. -/
def inPoll (op : OwnerOp) : State :=
  { asked op with transient := { Transient.reset with busy := true, seq := .headerRead } }

theorem witness_ReadsChangeNothing : (inPoll (.read .rawBuf)).env.owner = .read .rawBuf :: [] := rfl
theorem witness_InstallHookOnlyBetweenPolls :
    (asked (.installHook 3)).env.owner = .installHook 3 :: [] ∧ betweenPolls (asked (.installHook 3)) ∧
    (inPoll (.installHook 3)).env.owner = .installHook 3 :: [] ∧ ¬ betweenPolls (inPoll (.installHook 3)) :=
  ⟨rfl, rfl, rfl, by simp [betweenPolls, inPoll, State.inPoll]⟩
theorem witness_ResetKeepsNothing : (inPoll .reset).env.owner = .reset :: [] ∧
    (hooked [] (asked .reset)).env = (inPoll .reset).env := ⟨rfl, rfl⟩
theorem witness_ResetAbandonsThePacketInProgress : (inPoll .reset).env.owner = .reset :: [] := rfl
theorem witness_PollWhileBusyIsIgnored : (inPoll .poll).env.owner = .poll :: [] ∧
    (inPoll .pollPulse).env.owner = .pollPulse :: [] ∧ ¬ betweenPolls (inPoll .poll) :=
  ⟨rfl, rfl, by simp [betweenPolls, inPoll, State.inPoll]⟩
/-- A poll that writes REG_I8 and LAST_CMD, and an installation that writes HOOK. -/
theorem witness_EachRegisterHasOneWriter :
    betweenPolls scenario1 ∧ scenario1.env.owner.head? ≠ some .reset ∧
    (nextState? (step scenario1)).map (fun t => (t.retained.regI8, t.retained.lastCmd)) = some (0x2A#8, 0x0F#8) ∧
    stepAccepts scenario1 0x0F#8 ∧ betweenPolls (asked (.installHook 3)) ∧
    (nextState? (step (asked (.installHook 3)))).map (fun t => t.retained.hook) = some (some 3) :=
  ⟨rfl, by simp [scenario1, ready, polling], by decide +kernel, ⟨rfl, by decide +kernel⟩, rfl, rfl⟩
/-- Two states that differ in the transient state alone. -/
theorem witness_TransientStateIsHidden :
    let s' : State := { scenario1 with transient := { Transient.reset with crcRun := 0xFF#8, stage := [0x77#8] } }
    betweenPolls scenario1 ∧ betweenPolls s' ∧ sameOutside scenario1 s' ∧ s' ≠ scenario1 :=
  ⟨rfl, rfl, ⟨rfl, rfl, rfl⟩, by
    intro h
    have := congrArg (fun s : State => s.transient.crcRun) h
    exact absurd this (by decide +kernel)⟩
/-- Other registers, another hook. -/
theorem witness_DecisionIgnoresTheRegisters :
    let r : Retained := { Retained.reset .device with regI8 := 0x55#8, lastCmd := 0x14#8, hook := some 9 }
    (r.hook = none ↔ (asking (.answers true)).retained.hook = none) ∧
    ∃ t, poll .device (asking (.answers true)) = .next t :=
  ⟨by simp [asking, hooked], next_of_isSome (by decide +kernel)⟩
theorem witness_SequencerRefinesThePoll : ∀ s ∈ oneOfEach, betweenPolls s ∧ s.transient.hookReq = false := by
  intro s h
  simp only [oneOfEach, List.mem_cons, List.not_mem_nil, or_false] at h
  rcases h with rfl | rfl | rfl | rfl | rfl | rfl | rfl <;> exact ⟨rfl, rfl⟩

/-- A state inside a poll of SET_I8 42, after `n` transitions. -/
def during (n : Nat) : State := (started n scenario1).getD State.reset

/-- A transition without a commit, and the one with it. -/
theorem witness_ReadsDuringAPollSeeWholeCommits :
    (∃ t, tick .device (during 1) = .next t) ∧ (∃ t, tick .device (during 3) = .next t) ∧
    (during 3).transient.seq = .checksumRead ∧ (during 3).retained.regI8 = 0x00#8 ∧
    (during 4).retained.regI8 = 0x2A#8 :=
  ⟨next_of_isSome (by decide +kernel), next_of_isSome (by decide +kernel), by decide +kernel⟩
/-- Each row before the dispatch: Idle with and without a poll, HeaderRead, PayloadRead with LEN not 0 and with LEN 0. -/
theorem witness_SequencerReadsInOrder :
    (∃ t, tick .device State.reset = .next t) ∧ (∀ n ∈ [0, 1, 2], ∃ t, tick .device (during n) = .next t) ∧
    (during 0).transient.busy = true ∧ (during 1).transient.seq = .headerRead ∧
    (during 2).transient.seq = .payloadRead ∧ (during 2).transient.fLen ≠ 0 ∧
    ((started 2 (ready [0x01, 0x14, 0x00, 0xD7])).map fun t => (t.transient.seq, t.transient.fLen)) =
      some (.payloadRead, 0x00#8) :=
  ⟨⟨_, rfl⟩, fun n hn => next_of_isSome (by
    have h : ∀ n ∈ [0, 1, 2], (nextState? (tick .device (during n))).isSome = true := by decide +kernel
    exact h n hn), by decide +kernel⟩
/-- EXT 0x99, the hook having been asked, about to answer `b`. -/
def waiting (b : Bool) : State := (started 4 (asking (.answers b))).getD State.reset

/-- Each row from ChecksumRead on: the three ends of ChecksumRead, the hook's two answers, DispatchedAccepted and
DispatchedRejected. -/
theorem witness_SequencerDispatches :
    (∀ n ∈ [3, 4], ∃ t, tick .device (during n) = .next t) ∧ (during 3).transient.hookReq = false ∧
    [started 4 scenario1, started 4 (ready [0x01, 0x99, 0x00, 0x71]), started 4 (asking (.answers true))].map
      (fun s => s.map fun t => t.transient.seq) =
      [some .dispatchedAccepted, some .dispatchedRejected, some .checksumRead] ∧
    [true, false].map (fun b => ((waiting b).transient.seq, (waiting b).transient.hookReq,
      (nextState? (tick .device (waiting b))).map fun t => t.transient.seq)) =
      [(.checksumRead, true, some .dispatchedAccepted), (.checksumRead, true, some .dispatchedRejected)] :=
  ⟨fun n hn => next_of_isSome (by
    have h : ∀ n ∈ [3, 4], (nextState? (tick .device (during n))).isSome = true := by decide +kernel
    exact h n hn), by decide +kernel⟩
/-- The premise of its last clause. -/
theorem witness_SequencerDispatches_invariant (b : Bool) : Inv .device (waiting b) := by
  cases b <;>
    exact ⟨by decide +kernel, by decide +kernel, by decide +kernel, by decide +kernel, by decide +kernel,
      by decide +kernel⟩
theorem witness_EveryStepKeepsTheInvariant : Inv .device scenario1 ∧ ∃ t, step scenario1 = .next t :=
  ⟨inv_polling _, next_of_isSome (by decide +kernel)⟩

/-- Each clause, in Idle and inside a poll. -/
theorem witness_StepIsATransitionOrThePulse :
    State.reset.env.owner = [] ∧ (inPoll .wait).env.owner = .wait :: [] ∧
    { inPoll .wait with env := State.reset.env }.env.owner = [] ∧
    (asked .wait).env.owner = .wait :: [] ∧ (asked .pollPulse).env.owner = .pollPulse :: [] ∧
    betweenPolls (asked .pollPulse) ∧ (nextState? (step (asked .pollPulse))).map State.inPoll = some true :=
  ⟨rfl, rfl, rfl, rfl, rfl, rfl, by decide +kernel⟩

/-- Another record that fits the machine: the tags, the ACK and the polynomial differ. Two packets of it: one with its own
checksum, one without. -/
def otherDevice : Config :=
  { Config.device with
    selSendVariable := 0x02#8, tagInt8 := 0x41#8, tagStruct := 0x42#8, respAck := 0x06#8, crcPolyReflected := 0xE0#8,
    rawCap := 16, lastCmdReset := 0xFF#8 }

theorem witness_CommandsFollowTheParameterRecord :
    otherDevice.valid = true ∧ Config.device.valid = true ∧
    (∃ c, c = packetCrc otherDevice 0x41#8 [0x2B#8] ∧ c ≠ packetCrc .device 0x41#8 [0x2B#8]) ∧
    otherDevice.isNative 0x0F#8 = false ∧ scenario1.retained.hook = none :=
  ⟨by decide, by decide, ⟨_, rfl, by decide +kernel⟩, by decide, rfl⟩
/-- The record reaches the whole engine: its own packet is accepted by it, and ignored by this hardware. -/
theorem test_other_record :
    ((nextState? (stepWith otherDevice (polling (onPort (packet otherDevice 0x41#8 [0x2A#8]))))).map fun t =>
      (t.retained.regI8, t.retained.lastCmd, sends t.trace)) = some (0x2A#8, 0x41#8, [[0x06#8]]) ∧
    result (polling (onPort (packet otherDevice 0x41#8 [0x2A#8]))) = some (Retained.reset .device, [], []) ∧
    (State.resetWith otherDevice).retained.lastCmd = 0xFF#8 := by decide +kernel

end Sys2Proof.Tests
end

section
/-! The four invariants of a poll (10_state.md R29). -/

namespace Sys2Proof.Machine

/-- A poll that no dispatch decided is not Accepted and sends no ACK. -/
theorem QuietEvents.not_accepted_and_no_ack {o : PollOutcome} {l : Byte} {evs : List Event} (h : QuietEvents o l evs) :
    (∀ tag, o ≠ .accepted tag) ∧ sends evs = [] := by
  rcases h with ⟨rfl, rfl⟩ | ⟨rfl, b, -, rfl⟩ | ⟨rfl, rfl⟩ | ⟨t, l, -, rfl, rfl⟩ | ⟨t, p, -, rfl, -, rfl⟩
  case inr.inr.inr.inr => by_cases hp : p = [] <;> simp [hp, sends]
  all_goals simp [sends]

/-- 10_state.md R29 (d), (a), (c): a poll changes nothing and sends no ACK, or it consumes one valid packet, makes that
packet's whole change and sends one ACK. -/
theorem PollCase.atomic {s t : State} {oc : Option PollOutcome} (h : PollCase s (.next t) oc) :
    ∃ o evs, oc = some o ∧ t.trace = s.trace ++ evs ∧
      (((∀ tag, o ≠ .accepted tag) ∧ t.retained = s.retained ∧ sends evs = []) ∨
       (∃ tag p, o = .accepted tag ∧ p.length ≤ 255 ∧ (∀ w, requiredLen tag = some w → p.length = w) ∧
          s.env.rx = onPort (frameBytes tag p (rightChecksum tag p)) ++ t.env.rx ∧
          t.retained = acceptedEffect tag p s.retained ∧ sends evs = [[0x30#8]])) := by
  cases h with
  | quiet o u evs hr ht hb hq hst ho =>
    obtain ⟨hna, hs⟩ := ho.not_accepted_and_no_ack
    exact ⟨o, evs, rfl, ht, .inl ⟨hna, hr, hs⟩⟩
  | rejected tag p c hk u hp hr ht hb hq hst hl hk' hh =>
    refine ⟨_, _, rfl, ht, .inl ⟨by simp, hr, ?_⟩⟩
    rw [sends_append, sends_append, sends_frameEvents]
    rcases hk' with rfl | rfl <;> rfl
  | accepted tag p c hk u hp hr ht hb hq hst hl hk' hh hc hw hrx =>
    subst hc
    refine ⟨_, _, rfl, ht, .inr ⟨tag, p, rfl, hp, hw, hrx, hr, ?_⟩⟩
    rw [sends_append, sends_append, sends_frameEvents]
    rcases hk' with rfl | rfl <;> rfl

/-- Settles O36: the case analysis of the poll, and the Raw Buffer's form under an accepted packet's change. -/
theorem mutationOnlyWithAValidPacketAndItsAck : Obligations.MutationOnlyWithAValidPacketAndItsAck := by
  intro s t ops hinv hready hstep
  rw [step_pollReady hready] at hstep
  obtain ⟨o, evs, ho, htr, h⟩ := (poll_next_cases hstep).atomic
  have hwf : Memory.wf .device t.retained = true := by
    rcases h with ⟨-, hr, -⟩ | ⟨tag, p, -, -, -, -, hr, -⟩
    · rw [hr]; exact hinv.raw
    · rw [hr]; exact Memory.wf_acceptedEffect tag p hinv.raw
  obtain ⟨hlen, hcap⟩ := (Memory.wf_iff t.retained).mp hwf
  exact ⟨hcap, hlen, o, evs, ho, htr, h⟩

end Sys2Proof.Machine
end

section
/-!
The transient state is hidden (10_state.md R28): what a poll does from two states that differ in transient state alone.
-/

namespace Sys2Proof.Machine

theorem sameOutside.exists_transient {s s' : State} (h : sameOutside s s') : ∃ τ, s' = { s with transient := τ } := by
  obtain ⟨hr, htr, he⟩ := h
  exact ⟨s'.transient, by rw [hr, htr, he]⟩

theorem sameBetweenPolls_of_betweenPolls {s s' : State} (h : sameOutside s s') (hs : betweenPolls s)
    (hs' : betweenPolls s') : sameBetweenPolls s s' :=
  ⟨h, hs.trans hs'.symm, ((betweenPolls_iff s).mp hs).2.trans ((betweenPolls_iff s').mp hs').2.symm⟩

/-! ## The fetch -/

/-- Two fetches that differ in transient state alone: the same end, with the same outcome or the same instruction. -/
inductive SameFetch : Fetched → Fetched → Prop where
  | unanswered : SameFetch .unanswered .unanswered
  | ended {o : PollOutcome} {u u' : State} (h : sameBetweenPolls u u') : SameFetch (.ended o u) (.ended o u')
  | command {i : Instr} {u u' : State} (h : sameOutside u u') : SameFetch (.command i u) (.command i u')

/-- The fetch depends on the port alone: each case is fixed by what the port offers. -/
theorem fetch_same {s s' : State} (h : sameOutside s s') : SameFetch (fetch .device s) (fetch .device s') := by
  obtain ⟨τ, rfl⟩ := h.exists_transient
  have hf := fetch_cases s
  revert hf
  generalize fetch .device s = f
  intro hf
  cases hf with
  | frame t p c rest hp hrx =>
    rw [fetch_frame (s := { s with transient := τ }) hp hrx]
    exact .command ⟨rfl, rfl, rfl⟩
  | foreign sel rest hs hrx =>
    rw [fetch_foreign (s := { s with transient := τ }) hs hrx]
    exact .command ⟨rfl, rfl, rfl⟩
  | noFrame rest hrx =>
    rw [fetch_noFrame (s := { s with transient := τ }) hrx]
    exact .ended ⟨⟨rfl, rfl, rfl⟩, rfl, rfl⟩
  | header pre rest hpre hrx =>
    rw [fetch_headerFails (s := { s with transient := τ }) hrx (takeRx_fail pre rest hpre)]
    exact .ended ⟨⟨rfl, rfl, rfl⟩, rfl, rfl⟩
  | payload t l pre rest hpre hrx =>
    rw [fetch_payloadFails (s := { s with transient := τ }) hrx (takeRx_fail pre rest hpre)]
    exact .ended ⟨⟨rfl, rfl, rfl⟩, rfl, rfl⟩
  | checksum t p rest hp hrx =>
    rw [fetch_checksumFails (s := { s with transient := τ }) hp hrx]
    exact .ended ⟨⟨rfl, rfl, rfl⟩, rfl, rfl⟩
  | unanswered bs e hrx hd =>
    rw [fetch_unanswered (s := { s with transient := τ }) hd hrx]
    exact .unanswered

/-! ## The execution -/

/-- Two executions of `i` that no observer can tell apart and that make the same outcome of the poll. -/
inductive SameEnd (i : Instr) : StepResult → StepResult → Prop where
  | next {u u' : State} (h : sameBetweenPolls u u')
      (ho : commandOutcome .device i u.transient.handled = commandOutcome .device i u'.transient.handled) :
      SameEnd i (.next u) (.next u')
  | fault (f : Fault) : SameEnd i (.fault f) (.fault f)
  | refused (r : Refusal) : SameEnd i (.refused r) (.refused r)

theorem raiseDeviceError_same (i : Instr) (k : ErrorKind) (t : Byte) {s s' : State} (h : sameOutside s s') :
    SameEnd i (.next (raiseDeviceError .device k t s)) (.next (raiseDeviceError .device k t s')) := by
  obtain ⟨τ, rfl⟩ := h.exists_transient
  exact .next ⟨⟨rfl, rfl, rfl⟩, rfl, rfl⟩ rfl

theorem accept_same (i : Instr) (t : Byte) (f : Retained → Retained) {s s' : State} (h : sameOutside s s') :
    SameEnd i (.next (accept .device t f s)) (.next (accept .device t f s')) := by
  obtain ⟨τ, rfl⟩ := h.exists_transient
  exact .next ⟨⟨rfl, rfl, rfl⟩, rfl, rfl⟩ rfl

/-- The checksum's decision reads no transient state from before; so neither does the whole, if what follows does not. -/
theorem withChecksum_same (i : Instr) (t : Byte) (p : List Byte) (c : Byte) {k : State → StepResult}
    (hk : ∀ u u', sameOutside u u' → SameEnd i (k u) (k u')) {s s' : State} (h : sameOutside s s') :
    SameEnd i (withChecksum .device t p c s k) (withChecksum .device t p c s' k) := by
  have h1 : sameOutside (setCrcOk .device t p c s) (setCrcOk .device t p c s') := h
  by_cases hc : c = rightChecksum t p
  · rw [withChecksum_right hc, withChecksum_right hc]
    exact hk _ _ h1
  · rw [withChecksum_wrong hc, withChecksum_wrong hc]
    exact raiseDeviceError_same i _ _ h1

theorem storeFixed_same (i : Instr) (t : Byte) (w : Nat) (f : Retained → Retained) (p : List Byte) (c : Byte)
    {s s' : State} (h : sameOutside s s') :
    SameEnd i (storeFixed .device t w f p c s) (storeFixed .device t w f p c s') := by
  refine withChecksum_same i t p c (fun u u' hu => ?_) h
  have hu1 : sameOutside (setLenOk w p u) (setLenOk w p u') := hu
  rw [setLenOk_transient, setLenOk_transient]
  split
  · exact accept_same i _ _ hu1
  · exact raiseDeviceError_same i _ _ hu1

theorem finishHook_same (i : Instr) (t : Byte) (b : Bool) {s s' : State} (h : sameOutside s s') :
    SameEnd i (.next (finishHook .device t b s)) (.next (finishHook .device t b s')) := by
  cases b with
  | false => exact raiseDeviceError_same i _ _ h
  | true => exact accept_same i _ _ h

theorem execExt_same (i : Instr) (t : Byte) (p : List Byte) (c : Byte) {s s' : State} (h : sameOutside s s') :
    SameEnd i (execExt t p c s) (execExt t p c s') := by
  rw [execExt, execExt, execExtWith, execExtWith]
  refine withChecksum_same i t p c (fun u u' hu => ?_) h
  obtain ⟨τ, rfl⟩ := hu.exists_transient
  cases u.retained.hook with
  | none => exact raiseDeviceError_same i _ _ hu
  | some _ =>
    cases runHook u.env.hookIn with
    | unanswered => exact .fault _
    | reentered r => exact .refused _
    | answered b rest => exact finishHook_same i t b ⟨rfl, rfl, rfl⟩

/-- Every instruction gives the same end, whatever the transient state held before it. -/
theorem exec_same (i : Instr) {s s' : State} (h : sameOutside s s') : SameEnd i (exec i s) (exec i s') := by
  cases i with
  | ext t p c => exact execExt_same _ t p c h
  | setStruct p c => exact withChecksum_same _ _ p c (fun _ _ => accept_same _ _ _) h
  | ignoreSelector sel => exact .next ⟨h, rfl, rfl⟩ rfl
  | _ p c => exact storeFixed_same _ _ _ _ p c h

/-! ## The poll and the step -/

theorem poll_same {s s' : State} (h : sameOutside s s') :
    sameResult (poll .device s) (poll .device s') ∧ pollOutcome .device s = pollOutcome .device s' := by
  have hf : SameFetch (fetch .device (startPoll s)) (fetch .device (startPoll s')) := fetch_same h
  rw [poll, poll, pollOutcome, pollOutcome]
  revert hf
  generalize fetch .device (startPoll s) = f, fetch .device (startPoll s') = f'
  intro hf
  cases hf with
  | unanswered => exact ⟨rfl, rfl⟩
  | ended h => exact ⟨h, rfl⟩
  | @command i u u' h =>
    have hx := exec_same i h
    simp only [execWith_device]
    revert hx
    generalize exec i u = r, exec i u' = r'
    intro hx
    cases hx with
    | next h ho => exact ⟨h, congrArg some ho⟩
    | fault f => exact ⟨rfl, rfl⟩
    | refused r => exact ⟨rfl, rfl⟩

theorem tick_same {s s' : State} (hs : betweenPolls s) (hs' : betweenPolls s') (h : sameOutside s s') :
    sameResult (tick .device s) (tick .device s') := by
  obtain ⟨hb, hq⟩ := (betweenPolls_iff s).mp hs
  obtain ⟨hb', hq'⟩ := (betweenPolls_iff s').mp hs'
  rw [tick_idle hb hq, tick_idle hb' hq']
  exact sameBetweenPolls_of_betweenPolls h hs hs'

/-- No operation of the owner tells the two states apart. -/
theorem ownerStep_same (op : OwnerOp) {s s' : State} (hs : betweenPolls s) (hs' : betweenPolls s')
    (h : sameOutside s s') : sameResult (ownerStep .device op s) (ownerStep .device op s') := by
  have hp : s.inPoll = false := hs
  have hp' : s'.inPoll = false := hs'
  obtain ⟨⟨hr, htr, he⟩, hin, hseq⟩ := sameBetweenPolls_of_betweenPolls h hs hs'
  cases op with
  | poll =>
    simp only [ownerStep, hp, hp']
    exact (poll_same h).1
  | pollPulse =>
    simp only [ownerStep, hp, hp']
    exact ⟨h, rfl, hseq⟩
  | wait => exact tick_same hs hs' h
  | installHook k =>
    simp only [ownerStep, hp, hp']
    exact ⟨⟨by simp [hr], htr, he⟩, hin, hseq⟩
  | reset => exact ⟨⟨rfl, rfl, he⟩, rfl, rfl⟩
  | read _ => exact ⟨h, hin, hseq⟩

/-- Settles O50: the poll by its fetch and its execution, each the same from both states; every other operation directly. -/
theorem transientStateIsHidden : Obligations.TransientStateIsHidden := by
  intro s s' hs hs' h
  refine ⟨?_, (poll_same h).2⟩
  obtain ⟨hr, htr, he⟩ := h
  rw [step, step, stepWith, stepWith, ← he]
  cases s.env.owner with
  | nil => exact tick_same hs hs' ⟨hr, htr, he⟩
  | cons op ops => exact ownerStep_same op hs hs' ⟨hr, htr, by simp [he]⟩

end Sys2Proof.Machine
end

section
/-! The checksum guards every command, and nothing after it touches its flags (41_checksum.md R103). -/

namespace Sys2Proof.Machine

/-- Whatever `k` answers as a next state, CRC_RUN and CRC_OK are as they were. -/
def KeepsChecksumFlags (k : State → StepResult) : Prop :=
  ∀ u v, k u = .next v → v.transient.crcRun = u.transient.crcRun ∧ v.transient.crcOk = u.transient.crcOk

/-- `run` begins with the checksum's decision over the packet `t`, `p`, `c`, and what follows leaves its flags alone. -/
def GuardedByChecksum (t : Byte) (p : List Byte) (c : Byte) (run : State → StepResult) : Prop :=
  ∃ k, KeepsChecksumFlags k ∧ ∀ s, run s = withChecksum .device t p c s k

/-! ## Every command is guarded -/

theorem withChecksum_guarded {t : Byte} {p : List Byte} {c : Byte} {k : State → StepResult} (hk : KeepsChecksumFlags k) :
    GuardedByChecksum t p c (fun s => withChecksum .device t p c s k) := ⟨k, hk, fun _ => rfl⟩

theorem storeFixed_guarded (t : Byte) (w : Nat) (f : Retained → Retained) (p : List Byte) (c : Byte) :
    GuardedByChecksum t p c (storeFixed .device t w f p c) := by
  refine withChecksum_guarded fun u v h => ?_
  split at h <;> cases h <;> exact ⟨rfl, rfl⟩

theorem execSetStruct_guarded (p : List Byte) (c : Byte) :
    GuardedByChecksum Config.device.tagStruct p c (execSetStruct p c) := by
  change GuardedByChecksum _ p c (execSetStructWith .device p c)
  refine withChecksum_guarded fun u v h => ?_
  cases h
  exact ⟨rfl, rfl⟩

/-- The hook's answer ends the packet one way or the other; its flags stay. -/
theorem finishHook_checksum_flags (t : Byte) (b : Bool) (s : State) :
    (finishHook .device t b s).transient.crcRun = s.transient.crcRun ∧
      (finishHook .device t b s).transient.crcOk = s.transient.crcOk := by
  cases b <;> exact ⟨rfl, rfl⟩

theorem execExt_guarded (t : Byte) (p : List Byte) (c : Byte) : GuardedByChecksum t p c (execExt t p c) := by
  change GuardedByChecksum t p c (execExtWith .device t p c)
  refine withChecksum_guarded fun u v h => ?_
  split at h
  · cases h
    exact ⟨rfl, rfl⟩
  · split at h <;> cases h
    exact finishHook_checksum_flags t _ _

/-- The comparison comes before any look at the length or the hook, whatever the tag. -/
theorem exec_frame_guarded (t : Byte) (p : List Byte) (c : Byte) :
    GuardedByChecksum t p c (exec (frameInstr .device t p c)) := by
  unfold frameInstr
  split_ifs with hU16 hI16 hI8 hI32 hF32 hU32 hStruct
  · exact hU16 ▸ storeFixed_guarded ..
  · exact hI16 ▸ storeFixed_guarded ..
  · exact hI8 ▸ storeFixed_guarded ..
  · exact hI32 ▸ storeFixed_guarded ..
  · exact hF32 ▸ storeFixed_guarded ..
  · exact hU32 ▸ storeFixed_guarded ..
  · exact hStruct ▸ execSetStruct_guarded p c
  · exact execExt_guarded t p c

/-! ## What the guard gives -/

section
variable {t : Byte} {p : List Byte} {c : Byte} {run : State → StepResult}

theorem GuardedByChecksum.rejects (hg : GuardedByChecksum t p c run) (hc : c ≠ rightChecksum t p) (s : State) :
    endsWith s.retained [.err t] s.env false s (run s) := by
  obtain ⟨k, -, hrun⟩ := hg
  rw [hrun, withChecksum_wrong hc]
  exact ⟨_, rfl, rfl, rfl, rfl, rfl, rfl, rfl⟩

theorem GuardedByChecksum.flags (hg : GuardedByChecksum t p c run) {s u : State} (h : run s = .next u) :
    (u.transient.crcOk = true ↔ c = rightChecksum t p) ∧ u.transient.crcRun = rightChecksum t p := by
  obtain ⟨k, hk, hrun⟩ := hg
  rw [hrun] at h
  have hkept : u.transient.crcRun = (setCrcOk .device t p c s).transient.crcRun ∧
      u.transient.crcOk = (setCrcOk .device t p c s).transient.crcOk := by
    by_cases hc : c = rightChecksum t p
    · rw [withChecksum_right hc] at h
      exact hk _ _ h
    · rw [withChecksum_wrong hc] at h
      cases h
      exact ⟨rfl, rfl⟩
  obtain ⟨hcrc, hok⟩ := hkept
  refine ⟨?_, hcrc⟩
  rw [hok, setCrcOk_transient, packetCrc_eq_rightChecksum, beq_iff_eq, eq_comm]

end

/-- Settles O19: every command begins with the checksum's decision, and nothing after it writes the checksum's flags. -/
theorem checksumMismatchRejectsEveryCommand : Obligations.ChecksumMismatchRejectsEveryCommand :=
  ⟨fun s t c p _ hc => (exec_frame_guarded t p c).rejects hc s, fun _ _ t c p h => (exec_frame_guarded t p c).flags h⟩

end Sys2Proof.Machine
end

section
/-!
The dispatcher's commands (42_dispatch.md R111 to R118): each from the two ways it can end, an acceptance or a device
error; then the same over the wire (R122), and LAST_CMD over every poll (R121).
-/

namespace Sys2Proof.Machine

/-! ## How a command ends -/

theorem endsWith_accept {s s1 : State} {evs : List Event} (htr : s1.trace = s.trace ++ evs) (t : Byte)
    (f : Retained → Retained) :
    endsWith (writeLastCmd t (f s1.retained)) (evs ++ [.send [0x30#8]]) s1.env true s (.next (accept .device t f s1)) :=
  ⟨_, rfl, rfl, by rw [accept_trace, htr, List.append_assoc, Config.device_respAck], rfl, rfl, rfl, rfl⟩

/-- For every cause but a header that was not received, the error's tag is the packet's. -/
theorem endsWith_raiseDeviceError {s s1 : State} {evs : List Event} (htr : s1.trace = s.trace ++ evs) {k : ErrorKind}
    {t : Byte} (hk : errorTag .device k t = t) :
    endsWith s1.retained (evs ++ [.err t]) s1.env false s (.next (raiseDeviceError .device k t s1)) :=
  ⟨_, rfl, rfl, by rw [raiseDeviceError_trace, htr, List.append_assoc, hk], rfl, rfl, rfl, rfl⟩

/-! ## The fixed-width commands -/

/-- A command whose meaning is `storeFixed` follows the fixed-width rule, with what its store and LAST_CMD make of the
retained state. -/
theorem fixedWidthCommand_of_storeFixed {mk : List Byte → Byte → Instr} {tag : Byte} {w : Nat}
    {write store : List Byte → Retained → Retained}
    (hexec : ∀ p c s, exec (mk p c) s = storeFixed .device tag w (write p) p c s)
    (hstore : ∀ p r, store p r = writeLastCmd tag (write p r)) : fixedWidthCommand mk tag w store := by
  intro s p _
  rw [hexec, hstore]
  have htr := (flagsOnly_setLenOk w tag p (rightChecksum tag p) s).trace.trans (List.append_nil _).symm
  constructor
  · intro hlen
    rw [storeFixed_fits rfl hlen]
    exact endsWith_accept htr tag (write p)
  · intro hlen
    rw [storeFixed_misfits rfl hlen]
    exact endsWith_raiseDeviceError htr (k := .len) rfl

/-- Settles O10: the fixed-width rule at REG_I8. -/
theorem setI8StoresTheByteOrRejects : Obligations.SetI8StoresTheByteOrRejects :=
  fixedWidthCommand_of_storeFixed (write := fun p => writeI8 (operand8 p)) (fun _ _ _ => rfl) (fun _ _ => rfl)

/-- Settles O11: the fixed-width rule at REG_I16. -/
theorem setI16StoresLittleEndianOrRejects : Obligations.SetI16StoresLittleEndianOrRejects :=
  fixedWidthCommand_of_storeFixed (write := fun p => writeI16 (operand16 p)) (fun _ _ _ => rfl) (fun _ _ => rfl)

/-- Settles O12: the fixed-width rule at REG_U16. -/
theorem setU16StoresLittleEndianOrRejects : Obligations.SetU16StoresLittleEndianOrRejects :=
  fixedWidthCommand_of_storeFixed (write := fun p => writeU16 (operand16 p)) (fun _ _ _ => rfl) (fun _ _ => rfl)

/-- Settles O13: the fixed-width rule at REG_I32. -/
theorem setI32StoresLittleEndianOrRejects : Obligations.SetI32StoresLittleEndianOrRejects :=
  fixedWidthCommand_of_storeFixed (write := fun p => writeI32 (operand32 p)) (fun _ _ _ => rfl) (fun _ _ => rfl)

/-- Settles O14: the fixed-width rule at REG_U32. -/
theorem setU32StoresLittleEndianOrRejects : Obligations.SetU32StoresLittleEndianOrRejects :=
  fixedWidthCommand_of_storeFixed (write := fun p => writeU32 (operand32 p)) (fun _ _ _ => rfl) (fun _ _ => rfl)

/-- Settles O15: the fixed-width rule at REG_F32, the pattern being the assembled bits. -/
theorem setF32StoresThePatternOrRejects : Obligations.SetF32StoresThePatternOrRejects :=
  fixedWidthCommand_of_storeFixed (write := fun p => writeF32 (operand32 p)) (fun _ _ _ => rfl) (fun _ _ => rfl)

/-! ## The structured command -/

theorem exec_setStruct_right (p : List Byte) (s : State) :
    exec (.setStruct p (rightChecksum 0x14#8 p)) s =
      .next (accept .device 0x14#8 (writeRaw (p.take 32)) (setCrcOk .device 0x14#8 p (rightChecksum 0x14#8 p) s)) := by
  change execSetStructWith .device p (rightChecksum Config.device.tagStruct p) s = _
  rw [execSetStructWith, withChecksum_right rfl]
  rfl

/-- Settles O16: the acceptance stores `p.take 32`, whose length and bytes the library gives. -/
theorem setStructStoresThePrefix : Obligations.SetStructStoresThePrefix := by
  intro s p _
  have hlen : (p.take 32).length = min p.length 32 := by rw [List.length_take, Nat.min_comm]
  rw [exec_setStruct_right]
  constructor
  · rw [← hlen]
    exact endsWith_accept (List.append_nil _).symm 0x14#8 (writeRaw (p.take 32))
  · rintro t ⟨⟩
    refine ⟨?_, hlen, fun i => List.getElem?_take⟩
    change (BitVec.ofNat 6 (p.take 32).length).toNat = min p.length 32
    rw [hlen, BitVec.toNat_ofNat]
    omega

/-! ## The delegate path -/

theorem exec_ext_noHook {s : State} (t : Byte) (p : List Byte) (hh : s.retained.hook = none) :
    exec (.ext t p (rightChecksum t p)) s =
      .next (raiseDeviceError .device .unk t (setCrcOk .device t p (rightChecksum t p) s)) := by
  simp only [exec, execExt, execExtWith, withChecksum_right, setCrcOk_retained, hh]

theorem exec_ext_answered {s : State} {h : HookId} {b : Bool} {rest : List HookEvent} (t : Byte) (p : List Byte)
    (hh : s.retained.hook = some h) (hrun : runHook s.env.hookIn = .answered b rest) :
    exec (.ext t p (rightChecksum t p)) s =
      .next (finishHook .device t b (hookAnswered t b rest (setCrcOk .device t p (rightChecksum t p) s))) := by
  simp only [exec, execExt, execExtWith, withChecksum_right, setCrcOk_retained, setCrcOk_env, hh, hrun]

/-- A native tag's frame, however it ends, leaves the hook's port and trace alone. -/
theorem ExecCase.native_asks_no_hook {t : Byte} {p : List Byte} {c : Byte} {s u : State}
    (h : ExecCase t p c s (.next u)) (hn : Config.device.isNative t = true) :
    u.env.hookIn = s.env.hookIn ∧ ∃ evs, u.trace = s.trace ++ evs ∧ hookCalls evs = [] := by
  cases h with
  | crc s1 h1 => exact ⟨by simp [h1.env], _, by rw [raiseDeviceError_trace, h1.trace], rfl⟩
  | length s1 h1 => exact ⟨by simp [h1.env], _, by rw [raiseDeviceError_trace, h1.trace], rfl⟩
  | stored s1 h1 => exact ⟨by simp [h1.env], _, by rw [accept_trace, h1.trace], rfl⟩
  | noHook s1 h1 hc hn' => exact absurd (hn.symm.trans hn') nofun
  | asked s1 h1 hc hn' => exact absurd (hn.symm.trans hn') nofun

/-- Settles O17: the delegate path in each of its ends, the checksum's guard, and the native frame's cases. -/
theorem extAsksTheHook : Obligations.ExtAsksTheHook := by
  refine ⟨fun s t p _ _ => ⟨fun hh => ?_, fun h ports rest b hh hi => ?_, fun c hc => ?_⟩,
    fun s u t c p ht hu => ?_⟩
  · rw [exec_ext_noHook t p hh]
    exact endsWith_raiseDeviceError (List.append_nil _).symm (k := .unk) rfl
  · rw [exec_ext_answered t p hh (by rw [hi, runHook_answers])]
    constructor
    · rintro rfl
      exact endsWith_accept (hookAnswered_trace ..) t id
    · rintro rfl
      exact endsWith_raiseDeviceError (hookAnswered_trace ..) (k := .unk) rfl
  · exact (execExt_guarded t p c).rejects hc s
  · exact (hu ▸ exec_frame_cases t p c s).native_asks_no_hook ((isNative_iff t).mpr (by simpa using ht))

/-! ## Over the wire -/

/-- A poll whose port offers a whole frame executes it. -/
theorem poll_frame {s : State} {t c : Byte} {p : List Byte} {rest : List RxEvent} (hp : p.length ≤ 255)
    (h : s.env.rx = onPort (frameBytes t p c) ++ rest) :
    poll .device s = exec (frameInstr .device t p c) (afterFrame t p c rest (startPoll s)) := by
  rw [poll, fetch_frame (s := startPoll s) hp h]
  exact execWith_device _ _

theorem operand16_leBytes16 (v : BitVec 16) : operand16 (leBytes16 v) = v :=
  BitVec.extractLsb'_append_extractLsb'

theorem operand32_leBytes32 (v : BitVec 32) : operand32 (leBytes32 v) = v := by
  change v.extractLsb' 24 8 ++ v.extractLsb' 16 8 ++ v.extractLsb' 8 8 ++ v.extractLsb' 0 8 = v
  rw [BitVec.extractLsb'_append_extractLsb'_eq_extractLsb' (by rfl),
    BitVec.extractLsb'_append_extractLsb'_eq_extractLsb' (by rfl)]
  exact BitVec.extractLsb'_append_extractLsb'

/-- A fixed-width command decodes a value back from its bytes when the operand it assembles from them is the value. -/
theorem fixedWidthCommand.decodesBack {n w : Nat} {mk : List Byte → Byte → Instr} {tag : Byte}
    {operand : List Byte → BitVec n} {bytes : BitVec n → List Byte} {write : BitVec n → Retained → Retained}
    (hcmd : fixedWidthCommand mk tag w fun p r => writeLastCmd tag (write (operand p) r))
    (hmk : ∀ p c, frameInstr .device tag p c = mk p c) (hw : w ≤ 255) (hlen : ∀ v, (bytes v).length = w)
    (hoperand : ∀ v, operand (bytes v) = v) : decodesBack tag bytes write := by
  intro v s ops more hready hrx
  have hp : (bytes v).length ≤ 255 := (hlen v).trans_le hw
  obtain ⟨t, ht, hr, htr, -, -, -, hb⟩ := (hcmd
    (afterFrame tag (bytes v) (rightChecksum tag (bytes v)) more (startPoll (dropOwner s))) (bytes v) hp).1 (hlen v)
  simp only [hoperand] at hr
  refine ⟨t, frameEvents .device tag (bytes v) (rightChecksum tag (bytes v)) ++ [.send [0x30#8]], ?_, hr,
    htr.trans (List.append_assoc ..), ?_, ?_, hb⟩
  · rw [step_pollReady hready, poll_frame (s := dropOwner s) hp hrx, hmk]
    exact ht
  · rw [sends_append, sends_frameEvents]
    rfl
  · rw [errs_append, errs_frameEvents]
    rfl

/-- Settles O37: each command's own theorem over the wire, its operand undoing the little-endian bytes of a value. -/
theorem decodingInvertsEncodingForEveryType : Obligations.DecodingInvertsEncodingForEveryType :=
  ⟨fixedWidthCommand.decodesBack (operand := operand8) (write := writeI8) setI8StoresTheByteOrRejects
      (fun _ _ => rfl) (by decide) (fun _ => rfl) fun _ => rfl,
    fixedWidthCommand.decodesBack (operand := operand16) (write := writeI16) setI16StoresLittleEndianOrRejects
      (fun _ _ => rfl) (by decide) (fun _ => rfl) operand16_leBytes16,
    fixedWidthCommand.decodesBack (operand := operand16) (write := writeU16) setU16StoresLittleEndianOrRejects
      (fun _ _ => rfl) (by decide) (fun _ => rfl) operand16_leBytes16,
    fixedWidthCommand.decodesBack (operand := operand32) (write := writeI32) setI32StoresLittleEndianOrRejects
      (fun _ _ => rfl) (by decide) (fun _ => rfl) operand32_leBytes32,
    fixedWidthCommand.decodesBack (operand := operand32) (write := writeU32) setU32StoresLittleEndianOrRejects
      (fun _ _ => rfl) (by decide) (fun _ => rfl) operand32_leBytes32,
    fixedWidthCommand.decodesBack (operand := operand32) (write := writeF32) setF32StoresThePatternOrRejects
      (fun _ _ => rfl) (by decide) (fun _ => rfl) operand32_leBytes32⟩

/-! ## LAST_CMD -/

/-- Settles O34: the case analysis of the poll; only an acceptance changes the retained state, and it writes the tag. -/
theorem lastCmdRecordsTheAcceptedTag : Obligations.LastCmdRecordsTheAcceptedTag := by
  intro s t o hpoll ho
  have h := poll_next_cases hpoll
  rw [ho] at h
  cases h with
  | quiet o u evs hr ht hb hq hst hev =>
    have hlast : t.retained.lastCmd = s.retained.lastCmd := by rw [hr]
    cases o with
    | accepted tag => exact absurd rfl (hev.not_accepted_and_no_ack.1 tag)
    | _ => exact hlast
  | rejected tag p c hk u hp hr => exact congrArg Retained.lastCmd hr
  | accepted tag p c hk u hp hr ht hb hq hst hl hk' hh => exact ⟨by rw [hr, acceptedEffect_lastCmd], hh⟩

end Sys2Proof.Machine
end

section
/-!
The response and the device error (43_response_hook.md R143): which errors a poll signals, by its outcome. Which ACKs it
sends is in `PollCase.atomic`.
-/

namespace Sys2Proof.Machine

/-- The tags of the errors that a poll with this outcome signals. -/
def outcomeErrors : PollOutcome → List Byte
  | .readFailure tag => [tag]
  | .rejected tag => [tag]
  | _ => []

theorem QuietEvents.errs_eq {o : PollOutcome} {l : Byte} {evs : List Event} (h : QuietEvents o l evs) :
    errs evs = outcomeErrors o := by
  rcases h with ⟨rfl, rfl⟩ | ⟨rfl, b, -, rfl⟩ | ⟨rfl, rfl⟩ | ⟨t, l, -, rfl, rfl⟩ | ⟨t, p, -, rfl, -, rfl⟩
  case inr.inr.inr.inr => by_cases hp : p = [] <;> simp [hp, errs, outcomeErrors]
  all_goals rfl

/-- The frame's reads and the hook's call signal no error: the last event of a dispatched packet decides. -/
theorem errs_dispatched {t : Byte} {p : List Byte} {c : Byte} {hk : List Event} {b : Bool}
    (h : hk = [] ∨ hk = [.hook t b]) (e : Event) : errs (frameEvents .device t p c ++ hk ++ [e]) = errs [e] := by
  rw [errs_append, errs_append, errs_frameEvents]
  rcases h with rfl | rfl <;> rfl

theorem PollCase.errs_eq {s t : State} {o : PollOutcome} {evs : List Event} (h : PollCase s (.next t) (some o))
    (htr : t.trace = s.trace ++ evs) : errs evs = outcomeErrors o := by
  cases h with
  | quiet _ _ evs' hr ht hb hq hst hev =>
    obtain rfl : evs' = evs := List.append_cancel_left (ht.symm.trans htr)
    exact hev.errs_eq
  | rejected tag p c hk u hp hr ht hb hq hst hl hk' =>
    rw [← List.append_cancel_left (ht.symm.trans htr), errs_dispatched hk']
    rfl
  | accepted tag p c hk u hp hr ht hb hq hst hl hk' =>
    rw [← List.append_cancel_left (ht.symm.trans htr), errs_dispatched hk']
    rfl

/-- Settles O33: the poll's atomicity says that an ACK goes with Accepted alone, `outcomeErrors` which errors go with the
outcome. -/
theorem ackExactlyWhenAccepted : Obligations.AckExactlyWhenAccepted := by
  intro s t hpoll
  have hcase := poll_next_cases hpoll
  obtain ⟨o, evs, ho, htr, hatomic⟩ := hcase.atomic
  rw [ho] at hcase
  have herrs := hcase.errs_eq htr
  refine ⟨o, evs, ho, htr, ?_⟩
  rcases hatomic with ⟨hna, -, hsends⟩ | ⟨tag, p, rfl, -, -, -, -, hsends⟩
  · cases o with
    | accepted tag => exact absurd rfl (hna tag)
    | _ => exact ⟨hsends, herrs⟩
  · exact ⟨hsends, herrs⟩

end Sys2Proof.Machine
end

section
/-!
The device errors of the receiver (60_exceptions.md R161, R163): a poll whose fetch ends in a device error ends with it, and
which error that is follows from the read that failed.
-/

namespace Sys2Proof.Machine

/-- 60_exceptions.md R160 for a poll whose fetch raises a device error at `s1`, the state that the reads left: they have
appended `evs`, and the error follows them with the tag of its cause. -/
theorem endsWith_step_of_fetch_raises {s s1 : State} {ops : List OwnerOp} {o : PollOutcome} {k : ErrorKind} {t : Byte}
    {evs : List Event} {rest : List RxEvent} (hready : pollReady s ops)
    (hfetch : fetch .device (startPoll (dropOwner s)) = .ended o (raiseDeviceError .device k t s1))
    (hr : s1.retained = s.retained) (htr : s1.trace = s.trace ++ evs)
    (henv : s1.env = { (dropOwner s).env with rx := rest }) :
    endsWith s.retained (evs ++ [.err (errorTag .device k t)]) { s.env with owner := ops, rx := rest } false s (step s) := by
  have hstep : step s = .next (raiseDeviceError .device k t s1) := by rw [step_pollReady hready, poll, hfetch]
  refine ⟨_, hstep, hr, ?_, ?_, rfl, rfl, rfl⟩
  · rw [raiseDeviceError_trace, htr, List.append_assoc]
  · rw [raiseDeviceError_env, henv, dropOwner_env_of_pollReady hready]

/-- Settles O28: the fetch ends in the header's error, whose tag is 0x00 whatever F_TYPE held. -/
theorem headerFailureHasTagZero : Obligations.HeaderFailureHasTagZero := by
  intro s ops rx rest hready hrx hfail
  have hfetch := fetch_headerFails (s := startPoll (dropOwner s)) hrx hfail
  exact endsWith_step_of_fetch_raises (evs := [.recv 1 (.ok [0x01#8]), .recv 2 .fail]) hready hfetch rfl
    (List.append_assoc ..) rfl

/-- Settles O29: the fetch ends in the payload's error, whose tag is the TYPE that the header read latched. -/
theorem payloadFailureHasThePacketsTag : Obligations.PayloadFailureHasThePacketsTag := by
  intro s ops t l rx rest hready hrx hfail
  have hfetch := fetch_payloadFails (s := startPoll (dropOwner s)) hrx hfail
  exact endsWith_step_of_fetch_raises
    (evs := [.recv 1 (.ok [0x01#8]), .recv 2 (.ok [t, l]), .recv l.toNat .fail]) hready hfetch rfl
    (List.append_assoc ..) rfl

end Sys2Proof.Machine
end

section
/-!
The ports during a poll (70_reset_and_hazards.md R204): which transitions of the sequencer leave the retained state alone, and
what the one that does not makes of it.
-/

namespace Sys2Proof.Machine

/-! ## The reads before the checksum byte -/

/-- Out of Idle, with and without a poll in progress. -/
theorem tick_idle_retained {s t : State} (hseq : s.transient.seq = .idle) (h : tick .device s = .next t) :
    t.retained = s.retained := by
  cases hbusy : s.transient.busy with
  | false =>
    rw [tick_idle hbusy hseq] at h
    cases h
    rfl
  | true =>
    rcases tick_selector_cases hbusy hseq with ⟨rest, -, hn⟩ | ⟨sel, rest, -, -, hn⟩ | ⟨rest, -, hn⟩ | ⟨-, hn⟩ <;>
      cases hn.symm.trans h <;> rfl

theorem tick_header_retained {s t : State} (hseq : s.transient.seq = .headerRead) (h : tick .device s = .next t) :
    t.retained = s.retained := by
  rw [tick_header hseq] at h
  rcases readHeader_cases (cfg := .device) (by decide) s with
      ⟨ty, l, rest, -, hr⟩ | ⟨pre, rest, -, -, hr⟩ | ⟨pre, -, -, hr⟩ <;>
    rw [hr] at h <;> cases h <;> rfl

theorem tick_payload_retained {s t : State} (hseq : s.transient.seq = .payloadRead) (h : tick .device s = .next t) :
    t.retained = s.retained := by
  rw [tick_payload hseq] at h
  rcases readPayload_cases (cfg := .device) s with ⟨p, rest, -, -, hr⟩ | ⟨pre, rest, -, -, hr⟩ | ⟨pre, -, -, hr⟩ <;>
    rw [hr] at h <;> cases h <;> rfl

/-! ## The dispatch -/

/-- The retained state of `u` is that of `s`; or `u` is in DispatchedAccepted, with the whole change of the packet latched in
`s` made. -/
def UnchangedOrCommitted (s u : State) : Prop :=
  u.retained = s.retained ∨
    (u.transient.seq = .dispatchedAccepted ∧ u.retained = acceptedEffect s.transient.fType s.transient.stage s.retained)

theorem dispatchMux_unchangedOrCommitted (k : Bool) (e : ErrorKind) (s : State) :
    UnchangedOrCommitted s (dispatchMux .device k e s) := by
  rcases dispatchMux_cases k e s with ⟨-, hrejects⟩ | ⟨-, haccepts⟩
  · rw [hrejects]
    exact .inl rfl
  · rw [haccepts]
    exact .inr ⟨rfl, rfl⟩

/-- Once the whole frame is in, only the mux can write; a rejection and the request to the hook leave the registers. -/
theorem decideFrame_unchangedOrCommitted (s : State) : UnchangedOrCommitted s (decideFrame .device s) := by
  rcases decideFrame_cases s with ⟨-, hcrc⟩ | ⟨-, -, hmux⟩ | ⟨-, -, -, hunk⟩ | ⟨-, -, -, hasks⟩
  · rw [hcrc]
    exact .inl rfl
  · rw [hmux]
    exact dispatchMux_unchangedOrCommitted false .len s
  · rw [hunk]
    exact .inl rfl
  · rw [hasks]
    exact .inl rfl

/-- Out of ChecksumRead. Neither the checksum byte nor the hook's answer touches what the decision commits: F_TYPE, STAGE and
the registers at the decision are those of `s`. -/
theorem tick_checksumRead_unchangedOrCommitted {s t : State} (hseq : s.transient.seq = .checksumRead)
    (h : tick .device s = .next t) : UnchangedOrCommitted s t := by
  cases hreq : s.transient.hookReq with
  | true =>
    rw [tick_hook hseq hreq] at h
    rcases awaitHook_cases s with ⟨ports, b, rest, -, ha⟩ | ⟨ports, r, rest, -, ha⟩ | ⟨ports, -, ha⟩ <;>
      cases ha.symm.trans h
    exact dispatchMux_unchangedOrCommitted b .unk (hookAnswered s.transient.fType b rest s)
  | false =>
    rw [tick_checksum hseq hreq] at h
    rcases readChecksum_cases (cfg := .device) s with ⟨c, rest, -, hr⟩ | ⟨rest, -, hr⟩ | ⟨-, hr⟩ <;>
      rw [hr] at h <;> cases h
    · exact decideFrame_unchangedOrCommitted (latchFlags .device (afterChecksum c rest s))
    · exact .inl rfl

/-- Settles O53: state by state of SEQ; the transition out of ChecksumRead alone can write, and it makes the whole commit. -/
theorem readsDuringAPollSeeWholeCommits : Obligations.ReadsDuringAPollSeeWholeCommits := by
  intro s t h
  cases hseq : s.transient.seq with
  | idle => exact .inl (tick_idle_retained hseq h)
  | headerRead => exact .inl (tick_header_retained hseq h)
  | payloadRead => exact .inl (tick_payload_retained hseq h)
  | checksumRead =>
    rcases tick_checksumRead_unchangedOrCommitted hseq h with hsame | hcommit
    · exact .inl hsame
    · exact .inr ⟨rfl, hcommit⟩
  | dispatchedAccepted =>
    rw [tick_accepted hseq] at h
    cases h
    exact .inl rfl
  | dispatchedRejected =>
    rw [tick_rejected hseq] at h
    cases h
    exact .inl rfl

end Sys2Proof.Machine
end

section
/-!
The decoder against the encoder (30_encoding.md R60, R66, R67), and against the opcode table (R75).
-/

namespace Sys2Proof

open Sys2Proof.Machine

variable {cfg : Config}

/-! ## Decoding undoes encoding -/

/-- A valid record's LEN and staging area hold any payload that fits LEN. -/
theorem Config.bounds_of_valid {n : Nat} (hv : cfg.valid = true) (hn : n ≤ cfg.lenMax) : n ≤ 255 ∧ n ≤ cfg.stageCap := by
  obtain ⟨-, -, hmax, hcap, -⟩ := cfg.valid_iff.mp hv
  omega

/-- A well-formed instruction is what `frameInstr` makes of its tag, its payload and a checksum byte, or a foreign selector. -/
theorem Instr.wellFormed_cases {i : Instr} (hv : cfg.valid = true) (hi : i.wellFormed cfg = true) :
    (∃ t p c, p.length ≤ cfg.lenMax ∧ i = frameInstr cfg t p c) ∨
      ∃ sel, sel ≠ cfg.selSendVariable ∧ i = .ignoreSelector sel := by
  have hnodup := (cfg.valid_iff.mp hv).1
  cases i with
  | setU16 p c =>
    obtain ⟨h, -⟩ := frameInstr_native hnodup p c
    exact .inl ⟨_, p, c, of_decide_eq_true hi, h.symm⟩
  | setI16 p c =>
    obtain ⟨-, h, -⟩ := frameInstr_native hnodup p c
    exact .inl ⟨_, p, c, of_decide_eq_true hi, h.symm⟩
  | setI8 p c =>
    obtain ⟨-, -, h, -⟩ := frameInstr_native hnodup p c
    exact .inl ⟨_, p, c, of_decide_eq_true hi, h.symm⟩
  | setI32 p c =>
    obtain ⟨-, -, -, h, -⟩ := frameInstr_native hnodup p c
    exact .inl ⟨_, p, c, of_decide_eq_true hi, h.symm⟩
  | setF32 p c =>
    obtain ⟨-, -, -, -, h, -⟩ := frameInstr_native hnodup p c
    exact .inl ⟨_, p, c, of_decide_eq_true hi, h.symm⟩
  | setU32 p c =>
    obtain ⟨-, -, -, -, -, h, -⟩ := frameInstr_native hnodup p c
    exact .inl ⟨_, p, c, of_decide_eq_true hi, h.symm⟩
  | setStruct p c =>
    obtain ⟨-, -, -, -, -, -, h⟩ := frameInstr_native hnodup p c
    exact .inl ⟨_, p, c, of_decide_eq_true hi, h.symm⟩
  | ext t p c =>
    simp only [Instr.wellFormed, Bool.and_eq_true, Bool.not_eq_true'] at hi
    exact .inl ⟨t, p, c, of_decide_eq_true hi.1, (frameInstr_foreign hi.2 p c).symm⟩
  | ignoreSelector sel => exact .inr ⟨sel, by simpa [Instr.wellFormed] using hi, rfl⟩

theorem decode_foreign {sel : Byte} (hs : sel ≠ cfg.selSendVariable) (rest : List Byte) :
    decode cfg (sel :: rest) = .ok (.ignoreSelector sel, rest) := by
  simp [decode, hs]

/-- Settles O1: a well-formed instruction is a frame, whose bytes decode to it, or a foreign selector. -/
theorem decodeOfEncodeIsTheInstruction : Obligations.DecodeOfEncodeIsTheInstruction := by
  intro cfg i rest hv hi
  rcases Instr.wellFormed_cases hv hi with ⟨t, p, c, hp, rfl⟩ | ⟨sel, hs, rfl⟩
  · obtain ⟨h255, hcap⟩ := Config.bounds_of_valid hv hp
    rw [encode_frameInstr]
    exact decode_encodeFrame rest h255 hcap
  · exact decode_foreign hs rest

/-- Settles O2: a successful decoding read a frame's bytes or a foreign selector. -/
theorem encodeOfDecodeIsTheBytes : Obligations.EncodeOfDecodeIsTheBytes := by
  intro cfg bs i rest hv hd
  rcases decode_ok_cases hd with ⟨t, p, c, hp, rfl, rfl⟩ | ⟨sel, hs, rfl, rfl⟩
  · obtain ⟨-, -, hmax, -⟩ := cfg.valid_iff.mp hv
    exact ⟨frameInstr_wellFormed (by omega), by rw [encode_frameInstr]⟩
  · exact ⟨by simpa [Instr.wellFormed] using hs, rfl⟩

/-! ## Where a packet ends -/

/-- The bytes of a frame, with its LEN byte given, decode to it. -/
theorem decode_frame_device {t l c : Byte} {p : List Byte} (hl : p.length = l.toNat) (rest : List Byte) :
    decode .device (0x01#8 :: t :: l :: p ++ c :: rest) = .ok (frameInstr .device t p c, rest) := by
  have hp := length_le_of_toNat hl
  obtain rfl := lenByte_of_length hl
  have hd := decode_encodeFrame (cfg := .device) (t := t) (c := c) rest hp (hp.trans (by decide))
  simpa [encodeFrame, Config.device_selSendVariable] using hd

/-- Settles O3: the frame's bytes decode to it; a foreign selector is a packet of its own. -/
theorem packetEndsWhereLenSays : Obligations.PacketEndsWhereLenSays :=
  ⟨fun _ _ _ _ rest hl => ⟨_, decode_frame_device hl rest, frameInstr_tag .., frameInstr_payload ..⟩,
    fun _ rest hs => decode_foreign hs rest⟩

/-- After a header the decoder fails exactly when fewer than LEN payload bytes and a checksum byte follow. -/
theorem decode_header_error_iff (t l : Byte) (body : List Byte) :
    (∃ e, decode .device (0x01#8 :: t :: l :: body) = .error e) ↔ body.length < l.toNat + 1 := by
  constructor
  · rintro ⟨e, he⟩
    by_contra hlong
    have hl : (body.take l.toNat).length = l.toNat := by rw [List.length_take]; omega
    obtain ⟨c, rest, hdrop⟩ := List.exists_cons_of_length_pos (l := body.drop l.toNat) (by rw [List.length_drop]; omega)
    rw [← List.take_append_drop l.toNat body, hdrop, ← List.cons_append, ← List.cons_append, ← List.cons_append,
      decode_frame_device hl rest] at he
    cases he
  · intro hshort
    cases hd : decode .device (0x01#8 :: t :: l :: body) with
    | error e => exact ⟨e, rfl⟩
    | ok r =>
      exfalso
      rcases decode_ok_cases hd with ⟨t', p, c, hp, -, hbs⟩ | ⟨sel, hs, -, hbs⟩
      · simp only [encodeFrame, List.cons_append, List.nil_append, List.append_assoc, List.cons.injEq] at hbs
        obtain ⟨-, -, rfl, rfl⟩ := hbs
        have := lenByte_toNat hp
        simp at hshort
        omega
      · exact hs (List.cons.inj hbs).1.symm

/-- Settles O4: by how many bytes the sequence has, and its selector. -/
theorem onlyShortSequencesFailToDecode : Obligations.OnlyShortSequencesFailToDecode := by
  intro bs
  match bs with
  | [] => exact iff_of_true ⟨_, rfl⟩ (.inl rfl)
  | sel :: r =>
    by_cases hs : sel = 0x01#8
    · subst hs
      match r with
      | [] => exact iff_of_true ⟨_, rfl⟩ (.inr (.inl ⟨[], rfl, by decide⟩))
      | [b] => exact iff_of_true ⟨_, rfl⟩ (.inr (.inl ⟨[b], rfl, Nat.one_lt_two⟩))
      | t :: l :: body => simp [decode_header_error_iff]
    · simp [decode_foreign (cfg := .device) hs, hs]

/-! ## The opcode table -/

theorem bitVec_append_inj {n m : Nat} {a c : BitVec n} {b d : BitVec m} : a ++ b = c ++ d ↔ a = c ∧ b = d := by
  refine ⟨fun h => ⟨?_, ?_⟩, fun ⟨ha, hb⟩ => by rw [ha, hb]⟩
  · rw [← BitVec.extractLsb'_append_eq_left (a := a) (b := b), h, BitVec.extractLsb'_append_eq_left]
  · rw [← BitVec.extractLsb'_append_eq_right (a := a) (b := b), h, BitVec.extractLsb'_append_eq_right]

/-- A native tag's row matches by selector and tag. -/
theorem nativeRow_matches_iff (sel t l u : Byte) (m : String) :
    opcodeKey sel t l &&& (nativeRow .device m u).mask = (nativeRow .device m u).matchBits ↔ sel = 0x01#8 ∧ t = u := by
  have hmask : (nativeRow .device m u).mask = BitVec.allOnes 8 ++ BitVec.allOnes 8 ++ 0#8 := rfl
  rw [hmask, opcodeKey, BitVec.and_append, BitVec.and_append, BitVec.and_allOnes, BitVec.and_allOnes, BitVec.and_zero]
  change sel ++ t ++ 0#8 = 0x01#8 ++ u ++ 0#8 ↔ _
  rw [BitVec.append_left_inj, bitVec_append_inj]

/-- The row of EXT matches by selector alone. -/
theorem extRow_matches_iff (sel t l : Byte) :
    opcodeKey sel t l &&& 0xFF0000#24 = opcodeKey Config.device.selSendVariable 0x00#8 0x00#8 ↔ sel = 0x01#8 := by
  have hmask : 0xFF0000#24 = BitVec.allOnes 8 ++ 0#8 ++ 0#8 := rfl
  rw [hmask, opcodeKey, BitVec.and_append, BitVec.and_append, BitVec.and_allOnes, BitVec.and_zero, BitVec.and_zero]
  change sel ++ 0#8 ++ 0#8 = 0x01#8 ++ 0#8 ++ 0#8 ↔ _
  rw [BitVec.append_left_inj, BitVec.append_left_inj]

/-- With "send variable" the first row that matches is the one of the tag's command. -/
theorem selectRow_sendVariable (t l : Byte) :
    (selectRow .device (opcodeKey 0x01#8 t l)).map OpcodeRow.mnemonic = some (frameInstr .device t [] 0).mnemonic := by
  simp only [selectRow, opcodeTable, List.find?_cons, beq_eq_decide, nativeRow_matches_iff, extRow_matches_iff, true_and]
  cases hn : Config.device.isNative t with
  | true => obtain rfl | rfl | rfl | rfl | rfl | rfl | rfl := (isNative_iff t).mp hn <;> rfl
  | false =>
    rw [frameInstr_foreign hn]
    obtain ⟨h1, h2, h3, h4, h5, h6, h7⟩ := (isNative_eq_false_iff t).mp hn
    simp [Config.device, h1, h2, h3, h4, h5, h6, h7, Instr.mnemonic]

/-- With any other selector only the last row matches. -/
theorem selectRow_foreign {sel : Byte} (hs : sel ≠ 0x01#8) (t l : Byte) :
    (selectRow .device (opcodeKey sel t l)).map OpcodeRow.mnemonic = some "IGNORE_SELECTOR" := by
  simp [selectRow, opcodeTable, nativeRow_matches_iff, extRow_matches_iff, hs]

/-- Settles O5: a frame's row is its tag's, whatever the payload; a foreign selector's is the last. -/
theorem decodingFollowsTheOpcodeTable : Obligations.DecodingFollowsTheOpcodeTable := by
  intro sel t l body i rest hd
  rcases decode_ok_cases hd with ⟨t', p, c, -, rfl, hbs⟩ | ⟨sel', hs, rfl, hbs⟩
  · simp only [encodeFrame, List.cons_append, List.nil_append, List.cons.injEq] at hbs
    obtain ⟨rfl, rfl, -, -⟩ := hbs
    rw [frameInstr_mnemonic]
    exact selectRow_sendVariable t l
  · obtain rfl := (List.cons.inj hbs).1
    exact selectRow_foreign hs t l

/-- Settles O6: each of the nine sequences is decoded by evaluation. -/
theorem specWordsDecode : Obligations.SpecWordsDecode := by
  unfold Obligations.SpecWordsDecode
  decide

end Sys2Proof
end

section
/-!
The invariant of the block's state (10_state.md R18 to R27): each state that a step can reach meets it. What a state needs for
it depends on where the sequencer stands, so there is one lemma per kind of state and one per transition.
-/

namespace Sys2Proof.Machine

/-! ## When a state meets the invariant -/

/-- The invariant speaks of the retained and the transient state alone. -/
theorem Inv.congr {s t : State} (h : Inv .device s) (hr : t.retained = s.retained) (ht : t.transient = s.transient) :
    Inv .device t := by
  obtain ⟨raw, stage, idle, staged, asked, accepted⟩ := h
  exact ⟨by rwa [hr], by rwa [ht], by rwa [ht], by rwa [ht], by rwa [ht, hr], by rwa [ht]⟩

theorem Inv.hookReq_low {s : State} (h : Inv .device s) (hseq : s.transient.seq ≠ .checksumRead) :
    s.transient.hookReq = false :=
  Bool.of_not_eq_true fun hq => hseq (h.asked hq).1

theorem Inv.busy_high {s : State} (h : Inv .device s) (hseq : s.transient.seq ≠ .idle) : s.transient.busy = true :=
  Bool.of_not_eq_false fun hb => hseq (h.idle hb)

/-- Between polls, with hook_req low, only the two storages have a bound to keep. -/
theorem inv_of_betweenPolls {s : State} (hraw : Memory.wf .device s.retained = true)
    (hstage : s.transient.stage.length ≤ 255) (hb : betweenPolls s) (hq : s.transient.hookReq = false) :
    Inv .device s := by
  obtain ⟨-, hseq⟩ := (betweenPolls_iff s).mp hb
  exact ⟨hraw, hstage, fun _ => hseq, by simp [hseq], by simp [hq], by simp [hseq]⟩

/-- Inside a poll, with hook_req low: the payload is staged in ChecksumRead, and HANDLED is set in DispatchedAccepted. -/
theorem inv_of_busy {s : State} (hraw : Memory.wf .device s.retained = true) (hstage : s.transient.stage.length ≤ 255)
    (hbusy : s.transient.busy = true) (hq : s.transient.hookReq = false)
    (hstaged : s.transient.seq = .checksumRead → s.transient.stage.length = s.transient.fLen.toNat)
    (haccepted : s.transient.seq = .dispatchedAccepted → s.transient.handled = true) : Inv .device s :=
  ⟨hraw, hstage, by simp [hbusy], hstaged, by simp [hq], haccepted⟩

theorem inv_endPoll {s : State} (hraw : Memory.wf .device s.retained = true)
    (hstage : s.transient.stage.length ≤ 255) : Inv .device (endPoll s) :=
  inv_of_betweenPolls hraw hstage rfl rfl

/-! ## The transitions -/

theorem tick_idle_inv {s t : State} (h : Inv .device s) (hseq : s.transient.seq = .idle)
    (ht : tick .device s = .next t) : Inv .device t := by
  cases hbusy : s.transient.busy with
  | false =>
    rw [tick_idle hbusy hseq] at ht
    cases ht
    exact h
  | true =>
    have hq : s.transient.hookReq = false := h.hookReq_low (by simp [hseq])
    rcases tick_selector_cases hbusy hseq with ⟨rest, -, hn⟩ | ⟨sel, rest, -, -, hn⟩ | ⟨rest, -, hn⟩ | ⟨-, hn⟩ <;>
      cases hn.symm.trans ht
    · exact inv_of_busy h.raw h.stage hbusy hq nofun nofun
    · exact inv_endPoll h.raw h.stage
    · exact inv_endPoll h.raw h.stage

theorem tick_header_inv {s t : State} (h : Inv .device s) (hseq : s.transient.seq = .headerRead)
    (ht : tick .device s = .next t) : Inv .device t := by
  have hbusy : s.transient.busy = true := h.busy_high (by simp [hseq])
  have hq : s.transient.hookReq = false := h.hookReq_low (by simp [hseq])
  rw [tick_header hseq] at ht
  rcases readHeader_cases (cfg := .device) (by decide) s with
      ⟨ty, l, rest, -, hr⟩ | ⟨pre, rest, -, -, hr⟩ | ⟨pre, -, -, hr⟩ <;>
    rw [hr] at ht <;> cases ht
  · exact inv_of_busy h.raw h.stage hbusy hq nofun nofun
  · exact inv_endPoll h.raw h.stage

theorem tick_payload_inv {s t : State} (h : Inv .device s) (hseq : s.transient.seq = .payloadRead)
    (ht : tick .device s = .next t) : Inv .device t := by
  have hbusy : s.transient.busy = true := h.busy_high (by simp [hseq])
  have hq : s.transient.hookReq = false := h.hookReq_low (by simp [hseq])
  rw [tick_payload hseq] at ht
  rcases readPayload_cases (cfg := .device) s with ⟨p, rest, hp, -, hr⟩ | ⟨pre, rest, -, -, hr⟩ | ⟨pre, -, -, hr⟩ <;>
    rw [hr] at ht <;> cases ht
  · exact inv_of_busy h.raw (length_le_of_toNat hp) hbusy hq (fun _ => hp) nofun
  · exact inv_endPoll h.raw h.stage

theorem dispatchMux_inv {s : State} (k : Bool) (e : ErrorKind) (h : Inv .device s) (hbusy : s.transient.busy = true)
    (hq : s.transient.hookReq = false) : Inv .device (dispatchMux .device k e s) := by
  rcases dispatchMux_cases k e s with ⟨-, hrejects⟩ | ⟨-, haccepts⟩
  · rw [hrejects]
    exact inv_of_busy h.raw h.stage hbusy hq nofun nofun
  · rw [haccepts]
    exact inv_of_busy (Memory.wf_acceptedEffect _ _ h.raw) h.stage hbusy hq nofun fun _ => rfl

/-- The hook is asked only where the invariant lets it be. -/
theorem decideFrame_inv {s : State} (h : Inv .device s) (hseq : s.transient.seq = .checksumRead)
    (hq : s.transient.hookReq = false) : Inv .device (decideFrame .device s) := by
  have hbusy : s.transient.busy = true := h.busy_high (by simp [hseq])
  rcases decideFrame_cases s with ⟨-, hcrc⟩ | ⟨-, -, hmux⟩ | ⟨-, -, -, hunk⟩ | ⟨hok, hforeign, hhook, hasks⟩
  · rw [hcrc]
    exact inv_of_busy h.raw h.stage hbusy hq nofun nofun
  · rw [hmux]
    exact dispatchMux_inv false .len h hbusy hq
  · rw [hunk]
    exact inv_of_busy h.raw h.stage hbusy hq nofun nofun
  · rw [hasks]
    exact ⟨h.raw, h.stage, h.idle, h.staged, fun _ => ⟨hseq, hok, hforeign, hhook⟩, h.accepted⟩

theorem tick_checksumRead_inv {s t : State} (h : Inv .device s) (hseq : s.transient.seq = .checksumRead)
    (ht : tick .device s = .next t) : Inv .device t := by
  have hbusy : s.transient.busy = true := h.busy_high (by simp [hseq])
  cases hreq : s.transient.hookReq with
  | true =>
    rw [tick_hook hseq hreq] at ht
    rcases awaitHook_cases s with ⟨ports, b, rest, -, ha⟩ | ⟨ports, r, rest, -, ha⟩ | ⟨ports, -, ha⟩ <;>
      cases ha.symm.trans ht
    have hanswered : Inv .device (hookAnswered s.transient.fType b rest s) :=
      inv_of_busy h.raw h.stage hbusy rfl h.staged h.accepted
    exact dispatchMux_inv b .unk hanswered hbusy rfl
  | false =>
    rw [tick_checksum hseq hreq] at ht
    rcases readChecksum_cases (cfg := .device) s with ⟨c, rest, -, hr⟩ | ⟨rest, -, hr⟩ | ⟨-, hr⟩ <;>
      rw [hr] at ht <;> cases ht
    · have hlatched : Inv .device (latchFlags .device (afterChecksum c rest s)) :=
        inv_of_busy h.raw h.stage hbusy hreq h.staged h.accepted
      exact decideFrame_inv hlatched hseq hreq
    · exact inv_endPoll h.raw h.stage

/-- Every transition of the sequencer keeps the invariant. -/
theorem tick_inv {s t : State} (h : Inv .device s) (ht : tick .device s = .next t) : Inv .device t := by
  cases hseq : s.transient.seq with
  | idle => exact tick_idle_inv h hseq ht
  | headerRead => exact tick_header_inv h hseq ht
  | payloadRead => exact tick_payload_inv h hseq ht
  | checksumRead => exact tick_checksumRead_inv h hseq ht
  | dispatchedAccepted =>
    rw [tick_accepted hseq] at ht
    cases ht
    exact inv_endPoll h.raw h.stage
  | dispatchedRejected =>
    rw [tick_rejected hseq] at ht
    cases ht
    exact inv_endPoll h.raw h.stage

/-! ## The poll and the owner's other operations -/

theorem poll_inv {s t : State} (h : Inv .device s) (ht : poll .device s = .next t) : Inv .device t := by
  have hcase := poll_next_cases ht
  generalize pollOutcome .device s = oc at hcase
  cases hcase with
  | quiet o u evs hr htr hb hq hstage =>
    refine inv_of_betweenPolls (hr ▸ h.raw) ?_ hb hq
    rcases hstage with hsame | hbound
    · exact hsame ▸ h.stage
    · exact hbound
  | rejected tag p c hk u hp hr htr hb hq hstage => exact inv_of_betweenPolls (hr ▸ h.raw) (hstage ▸ hp) hb hq
  | accepted tag p c hk u hp hr htr hb hq hstage =>
    exact inv_of_betweenPolls (hr ▸ Memory.wf_acceptedEffect tag p h.raw) (hstage ▸ hp) hb hq

theorem resetBlock_inv (s : State) : Inv .device (resetBlock .device s) :=
  inv_of_betweenPolls (Memory.wf_resetBlock s) (Nat.zero_le _) rfl rfl

theorem ownerStep_inv {op : OwnerOp} {s t : State} (h : Inv .device s) (ht : ownerStep .device op s = .next t) :
    Inv .device t := by
  cases op with
  | poll =>
    rw [ownerStep] at ht
    split at ht
    · cases ht
      exact h
    · exact poll_inv h ht
  | pollPulse =>
    cases ht
    split
    · exact h
    · exact ⟨h.raw, h.stage, nofun, h.staged, h.asked, h.accepted⟩
  | wait => exact tick_inv h ht
  | installHook k =>
    rw [ownerStep] at ht
    split at ht <;> cases ht
    refine ⟨h.raw, h.stage, h.idle, h.staged, fun hq => ?_, h.accepted⟩
    obtain ⟨hseq, hok, hforeign, -⟩ := h.asked hq
    exact ⟨hseq, hok, hforeign, nofun⟩
  | reset =>
    cases ht
    exact resetBlock_inv s
  | read p =>
    cases ht
    exact h

/-- Settles O56: a step is a transition of the sequencer or an operation of the owner, and each keeps the invariant. -/
theorem everyStepKeepsTheInvariant : Obligations.EveryStepKeepsTheInvariant := by
  intro s t h ht
  rw [step, stepWith] at ht
  split at ht
  · exact tick_inv h ht
  · exact ownerStep_inv (h.congr (dropOwner_retained s) (dropOwner_transient s)) ht

/-- Settles O57: after reset the block is between polls with both storages empty, and Idle without a poll stays. -/
theorem resetMeetsTheInvariant : Obligations.ResetMeetsTheInvariant :=
  ⟨resetBlock_inv State.reset, tick_idle (s := State.reset) rfl rfl⟩

end Sys2Proof.Machine
end

section
/-!
The checksum (41_checksum.md R100, R104): the two loops, the step's linearity, and the residue of a sequence followed by its
checksum.
-/

namespace Sys2Proof.Machine

variable {cfg : Config}

/-! ## The two loops -/

/-- The shift loop holds in its value both the running value and the bits of the byte that are still to come. -/
theorem crcShift_xor_eq_crcMixBit (x y : Byte) :
    crcShift cfg (x ^^^ y) = crcMixBit cfg x (y.getLsbD 0) ^^^ (y >>> 1) := by
  unfold crcShift crcMixBit
  rw [BitVec.getLsbD_xor, BitVec.ushiftRight_xor_distrib]
  split
  · ac_rfl
  · rfl

theorem crcShifts_xor_eq_foldl (n : Nat) (x y : Byte) :
    crcShifts cfg n (x ^^^ y) =
      (List.range n).foldl (fun z i => crcMixBit cfg z (y.getLsbD i)) x ^^^ (y >>> n) := by
  induction n generalizing x y with
  | zero => simp [crcShifts]
  | succ n ih =>
    rw [crcShifts, crcShift_xor_eq_crcMixBit, ih, List.range_succ_eq_map, List.foldl_cons, List.foldl_map,
      ← BitVec.shiftRight_add y 1 n, Nat.add_comm 1 n]
    simp [BitVec.getLsbD_ushiftRight, Nat.add_comm]

/-- Settles O7: after eight iterations no bit of the byte is left to come. -/
theorem bothChecksumLoopsAgree : Obligations.BothChecksumLoopsAgree := by
  intro c b
  rw [crc8Update, crc8UpdateBitSerial, crcShifts_xor_eq_foldl, BitVec.ushiftRight_eq_zero (Nat.le_refl 8), BitVec.xor_zero]

/-! ## The step -/

theorem crcShifts_xor (n : Nat) (a b : Byte) :
    crcShifts .device n (a ^^^ b) = crcShifts .device n a ^^^ crcShifts .device n b := by
  induction n generalizing a b with
  | zero => rfl
  | succ n ih => rw [crcShifts, crcShifts, crcShifts, crcShift_xor, ih]

theorem crc8Update_zero (b : Byte) : crc8Update .device 0x00#8 b = crcShifts .device 8 b := by
  rw [crc8Update, BitVec.zero_xor]

/-- Settles O9: each iteration is linear, so eight of them are. -/
theorem checksumStepIsLinear : Obligations.ChecksumStepIsLinear := by
  intro u v
  simp only [crc8Update_zero]
  exact ⟨crcShifts_xor 8 u v, rfl⟩

/-! ## The residue -/

/-- One iteration loses nothing: the polynomial's top bit is one, and a shifted value's is zero. -/
theorem crcShift_eq_zero_iff (x : Byte) : crcShift .device x = 0x00#8 ↔ x = 0x00#8 := by
  revert x
  decide

theorem crcShifts_eq_zero_iff (n : Nat) (x : Byte) : crcShifts .device n x = 0x00#8 ↔ x = 0x00#8 := by
  induction n generalizing x with
  | zero => rfl
  | succ n ih => rw [crcShifts, ih, crcShift_eq_zero_iff]

theorem crc8Update_eq_zero_iff (c b : Byte) : crc8Update .device c b = 0x00#8 ↔ b = c := by
  rw [crc8Update, crcShifts_eq_zero_iff, BitVec.xor_eq_zero_iff, eq_comm]

/-- Settles O8: by the chaining, the last byte's step alone decides the residue. -/
theorem checksumChainsAndLeavesZeroResidue : Obligations.ChecksumChainsAndLeavesZeroResidue := by
  intro seed s u c
  refine ⟨crc8_append seed s u, ?_⟩
  rw [crc8_append]
  exact crc8Update_eq_zero_iff _ c

end Sys2Proof.Machine
end

section
/-!
What the execution of any instruction can do, ill-formed ones included (42_dispatch.md R110; log 29): its frame and its stops.
-/

namespace Sys2Proof.Machine

/-! ## All that an instruction can do -/

/-- How the execution of `i` from `s` can end. Only an EXT with its right checksum and a hook installed can stop it. -/
inductive InstrCase (i : Instr) (s : State) : StepResult → Prop where
  | rejected (k : ErrorKind) (t : Byte) (s1 : State) (h1 : FlagsOnly s s1) :
      InstrCase i s (.next (raiseDeviceError .device k t s1))
  | accepted (t : Byte) (f : Retained → Retained) (s1 : State) (h1 : FlagsOnly s s1) (hf : ∀ r, (f r).hook = r.hook) :
      InstrCase i s (.next (accept .device t f s1))
  | asked (t : Byte) (b : Bool) (rest : List HookEvent) (s1 : State) (h1 : FlagsOnly s s1) :
      InstrCase i s (.next (finishHook .device t b (hookAnswered t b rest s1)))
  | ignored : InstrCase i s (.next (endPoll s))
  | silent (t : Byte) (p : List Byte) (hi : i = .ext t p (rightChecksum t p)) (hh : s.retained.hook ≠ none)
      (ports : List Port) (hin : s.env.hookIn = ports.map HookEvent.reads) : InstrCase i s (.fault .hookUnanswered)
  | reentry (t : Byte) (p : List Byte) (hi : i = .ext t p (rightChecksum t p)) (hh : s.retained.hook ≠ none)
      (r : Reentry) (ports : List Port) (rest : List HookEvent)
      (hin : s.env.hookIn = ports.map HookEvent.reads ++ .reenters r :: rest) :
      InstrCase i s (.refused (.hookReentry r))

theorem storeFixed_instrCase (i : Instr) (t : Byte) (w : Nat) {f : Retained → Retained} (p : List Byte) (c : Byte)
    (s : State) (hf : ∀ r, (f r).hook = r.hook) : InstrCase i s (storeFixed .device t w f p c s) := by
  by_cases hc : c = rightChecksum t p
  · by_cases hl : p.length = w
    · rw [storeFixed_fits hc hl]
      exact .accepted t f _ (flagsOnly_setLenOk ..) hf
    · rw [storeFixed_misfits hc hl]
      exact .rejected .len t _ (flagsOnly_setLenOk ..)
  · rw [storeFixed, withChecksum_wrong hc]
    exact .rejected .crc t _ (flagsOnly_setCrcOk ..)

theorem execSetStruct_instrCase (i : Instr) (p : List Byte) (c : Byte) (s : State) :
    InstrCase i s (execSetStruct p c s) := by
  rw [execSetStruct, execSetStructWith]
  by_cases hc : c = rightChecksum Config.device.tagStruct p
  · rw [withChecksum_right hc]
    exact .accepted _ _ _ (flagsOnly_setCrcOk ..) fun _ => rfl
  · rw [withChecksum_wrong hc]
    exact .rejected .crc _ _ (flagsOnly_setCrcOk ..)

theorem exec_ext_silent {s : State} {h : HookId} (t : Byte) (p : List Byte) (hh : s.retained.hook = some h)
    (hrun : runHook s.env.hookIn = .unanswered) : exec (.ext t p (rightChecksum t p)) s = .fault .hookUnanswered := by
  simp only [exec, execExt, execExtWith, withChecksum_right, setCrcOk_retained, setCrcOk_env, hh, hrun]

theorem exec_ext_reentry {s : State} {h : HookId} {r : Reentry} (t : Byte) (p : List Byte)
    (hh : s.retained.hook = some h) (hrun : runHook s.env.hookIn = .reentered r) :
    exec (.ext t p (rightChecksum t p)) s = .refused (.hookReentry r) := by
  simp only [exec, execExt, execExtWith, withChecksum_right, setCrcOk_retained, setCrcOk_env, hh, hrun]

theorem execExt_instrCase (t : Byte) (p : List Byte) (c : Byte) (s : State) :
    InstrCase (.ext t p c) s (exec (.ext t p c) s) := by
  by_cases hc : c = rightChecksum t p
  · subst hc
    cases hh : s.retained.hook with
    | none =>
      rw [exec_ext_noHook t p hh]
      exact .rejected .unk t _ (flagsOnly_setCrcOk ..)
    | some h =>
      have hne : s.retained.hook ≠ none := by simp [hh]
      rcases runHook_cases s.env.hookIn with ⟨ports, b, rest, hin, hrun⟩ | ⟨ports, r, rest, hin, hrun⟩ |
        ⟨ports, hin, hrun⟩
      · rw [exec_ext_answered t p hh hrun]
        exact .asked t b rest _ (flagsOnly_setCrcOk ..)
      · rw [exec_ext_reentry t p hh hrun]
        exact .reentry t p rfl hne r ports rest hin
      · rw [exec_ext_silent t p hh hrun]
        exact .silent t p rfl hne ports hin
  · rw [exec, execExt, execExtWith, withChecksum_wrong hc]
    exact .rejected .crc t _ (flagsOnly_setCrcOk ..)

theorem exec_instrCase (i : Instr) (s : State) : InstrCase i s (exec i s) := by
  cases i with
  | ext t p c => exact execExt_instrCase t p c s
  | setStruct p c => exact execSetStruct_instrCase _ p c s
  | ignoreSelector sel => exact .ignored
  | _ p c => exact storeFixed_instrCase _ _ _ p c s fun _ => rfl

/-! ## The stops -/

/-- Settles O21: of the ends of an instruction, the two that are no next state are those of an EXT. -/
theorem onlyTheHookCanStopAnInstruction : Obligations.OnlyTheHookCanStopAnInstruction := by
  intro i s
  have hcase := exec_instrCase i s
  generalize exec i s = o at hcase
  cases hcase with
  | silent t p hi hh ports hin => exact .inr ⟨t, p, hi, hh, .inl ⟨rfl, ports, hin⟩⟩
  | reentry t p hi hh r ports rest hin => exact .inr ⟨t, p, hi, hh, .inr ⟨r, ports, rest, rfl, hin⟩⟩
  | _ => exact .inl ⟨_, rfl⟩

/-- Settles O40: a hook that only reads has not answered. -/
theorem unansweredHookHangsTheBlock : Obligations.UnansweredHookHangsTheBlock := by
  intro s t p h ports hh hin
  exact exec_ext_silent t p hh (by rw [hin, runHook_silent])

/-- Settles O41: a hook that reads and then calls back has re-entered. -/
theorem hookReentryIsRefused : Obligations.HookReentryIsRefused := by
  intro s t p h ports r rest hh hin
  exact exec_ext_reentry t p hh (by rw [hin, runHook_reenters])

/-! ## The frame -/

/-- What every instruction leaves alone: the receiver's latches, the transport's and the owner's inputs, HOOK. -/
structure ReceiverKept (s t : State) : Prop where
  fSel : t.transient.fSel = s.transient.fSel
  fType : t.transient.fType = s.transient.fType
  fLen : t.transient.fLen = s.transient.fLen
  fChk : t.transient.fChk = s.transient.fChk
  stage : t.transient.stage = s.transient.stage
  idx : t.transient.idx = s.transient.idx
  rxFail : t.transient.rxFail = s.transient.rxFail
  rx : t.env.rx = s.env.rx
  owner : t.env.owner = s.env.owner
  hook : t.retained.hook = s.retained.hook
  trace : s.trace <+: t.trace

theorem FlagsOnly.receiverKept {s s1 : State} (h1 : FlagsOnly s s1) : ReceiverKept s s1 := by
  obtain ⟨hr, he, htr, _, _, _, ht⟩ := h1
  constructor <;> simp [hr, he, htr, ht]

theorem ReceiverKept.raiseDeviceError {s s1 : State} (h : ReceiverKept s s1) (k : ErrorKind) (t : Byte) :
    ReceiverKept s (raiseDeviceError .device k t s1) :=
  { h with trace := h.trace.trans (List.prefix_append ..) }

theorem ReceiverKept.accept {s s1 : State} (h : ReceiverKept s s1) (t : Byte) {f : Retained → Retained}
    (hf : ∀ r, (f r).hook = r.hook) : ReceiverKept s (accept .device t f s1) :=
  { h with trace := h.trace.trans (List.prefix_append ..), hook := (hf _).trans h.hook }

theorem ReceiverKept.hookAnswered {s s1 : State} (h : ReceiverKept s s1) (t : Byte) (b : Bool) (rest : List HookEvent) :
    ReceiverKept s (hookAnswered t b rest s1) :=
  { h with trace := h.trace.trans (List.prefix_append ..) }

theorem ReceiverKept.finishHook {s s1 : State} (h : ReceiverKept s s1) (t : Byte) (b : Bool) :
    ReceiverKept s (finishHook .device t b s1) := by
  cases b with
  | false => exact h.raiseDeviceError .unk t
  | true => exact h.accept t fun _ => rfl

theorem finishHook_betweenPolls (t : Byte) (b : Bool) (s : State) : betweenPolls (finishHook .device t b s) := by
  cases b <;> rfl

theorem InstrCase.receiverKept {i : Instr} {s u : State} (h : InstrCase i s (.next u)) :
    ReceiverKept s u ∧ betweenPolls u := by
  cases h with
  | rejected k t s1 h1 => exact ⟨h1.receiverKept.raiseDeviceError k t, rfl⟩
  | accepted t f s1 h1 hf => exact ⟨h1.receiverKept.accept t hf, rfl⟩
  | asked t b rest s1 h1 =>
    exact ⟨(h1.receiverKept.hookAnswered t b rest).finishHook t b, finishHook_betweenPolls t b _⟩
  | ignored => exact ⟨⟨rfl, rfl, rfl, rfl, rfl, rfl, rfl, rfl, rfl, rfl, List.prefix_rfl⟩, rfl⟩

/-- Settles O23: each way an instruction can end keeps the receiver's state. -/
theorem instructionsLeaveTheReceiverAlone : Obligations.InstructionsLeaveTheReceiverAlone := by
  intro i s t ht
  obtain ⟨⟨fSel, fType, fLen, fChk, stage, idx, rxFail, rx, owner, hook, trace⟩, hb⟩ :=
    (ht ▸ exec_instrCase i s).receiverKept
  exact ⟨fSel, fType, fLen, fChk, stage, idx, rxFail, rx, owner, hook, ((betweenPolls_iff t).mp hb).2, hb, trace⟩

/-! ## The flags -/

/-- A frame's execution answers `u`: HANDLED says whether the packet's whole change was made and its ACK sent, or nothing. -/
structure Decided (t : Byte) (p : List Byte) (s u : State) : Prop where
  retained : u.retained = if u.transient.handled then acceptedEffect t p s.retained else s.retained
  events : ∃ evs, u.trace = s.trace ++ evs ∧ sends evs = if u.transient.handled then [[0x30#8]] else []

theorem decided_raiseDeviceError {t : Byte} {p : List Byte} {s s1 : State} {evs : List Event}
    (hr : s1.retained = s.retained) (htr : s1.trace = s.trace ++ evs) (hs : sends evs = []) (k : ErrorKind) :
    Decided t p s (raiseDeviceError .device k t s1) :=
  ⟨hr, evs ++ [Event.err (errorTag .device k t)], by simp [htr], by rw [sends_append, hs]; rfl⟩

theorem decided_accept {t : Byte} {p : List Byte} {s s1 : State} {evs : List Event} {f : Retained → Retained}
    (hr : writeLastCmd t (f s1.retained) = acceptedEffect t p s.retained) (htr : s1.trace = s.trace ++ evs)
    (hs : sends evs = []) : Decided t p s (accept .device t f s1) :=
  ⟨hr, evs ++ [Event.send [0x30#8]], by simp [htr, Config.device_respAck], by rw [sends_append, hs]; rfl⟩

theorem ExecCase.decided {t : Byte} {p : List Byte} {c : Byte} {s u : State} (h : ExecCase t p c s (.next u)) :
    Decided t p s u := by
  have kept {s1 : State} (h1 : FlagsOnly s s1) : s1.trace = s.trace ++ [] := by rw [h1.trace, List.append_nil]
  cases h with
  | crc s1 h1 => exact decided_raiseDeviceError h1.retained (kept h1) rfl .crc
  | length s1 h1 => exact decided_raiseDeviceError h1.retained (kept h1) rfl .len
  | noHook s1 h1 => exact decided_raiseDeviceError h1.retained (kept h1) rfl .unk
  | stored s1 h1 f hc hn hl hf => exact decided_accept (by rw [hf, h1.retained]) (kept h1) rfl
  | asked s1 h1 hc hn h hh ports b rest hin =>
    have htr : (hookAnswered t b rest s1).trace = s.trace ++ [Event.hook t b] := by rw [hookAnswered_trace, h1.trace]
    cases b with
    | false => exact decided_raiseDeviceError (s1 := hookAnswered t false rest s1) h1.retained htr rfl .unk
    | true =>
      refine decided_accept ?_ htr rfl
      rw [acceptedEffect_of_not_native hn, hookAnswered_retained, h1.retained, id]

/-- Each of the six fixed-width tags has the fixed-width rule, with its required length. -/
theorem exec_frame_fixedWidth {t : Byte} {w : Nat} (hw : requiredLen t = some w) (p : List Byte) (c : Byte) (s : State) :
    ∃ f, exec (frameInstr .device t p c) s = storeFixed .device t w f p c s := by
  unfold requiredLen at hw
  split_ifs at hw with hI8 hI16 hU16 hI32 hU32 hF32
  all_goals
    cases hw
    subst t
    exact ⟨_, rfl⟩

/-- LEN_OK, once the checksum has passed. -/
theorem storeFixed_lenOk {t : Byte} {w : Nat} {f : Retained → Retained} {p : List Byte} {s u : State}
    (h : storeFixed .device t w f p (rightChecksum t p) s = .next u) : u.transient.lenOk = true ↔ p.length = w := by
  by_cases hl : p.length = w
  · rw [storeFixed_fits rfl hl] at h
    cases h
    simp
  · rw [storeFixed_misfits rfl hl] at h
    cases h
    simp

/-- Settles O22: the checksum's guard gives its flags, the fixed-width rule LEN_OK, the frame's cases HANDLED; and a request
sets rx_fail. -/
theorem flagsSayWhatThePollFound : Obligations.FlagsSayWhatThePollFound := by
  refine ⟨fun s u t c p hu => ?_, fun s u n a hu => ?_⟩
  · obtain ⟨hok, hrun⟩ := (exec_frame_guarded t p c).flags hu
    have hcase : ExecCase t p c s (.next u) := hu ▸ exec_frame_cases t p c s
    obtain ⟨hr, evs, htr, hs⟩ := hcase.decided
    refine ⟨hrun, hok, fun hc w hw => ?_, evs, htr, fun hh => ?_, fun hh => ?_⟩
    · obtain ⟨f, hf⟩ := exec_frame_fixedWidth hw p c s
      subst hc
      exact storeFixed_lenOk (hf.symm.trans hu)
    · rw [hh] at hr hs
      exact ⟨hs, by rw [hr]; exact acceptedEffect_lastCmd t p s.retained⟩
    · rw [hh] at hr hs
      exact ⟨hs, hr⟩
  · have hrecv : ∃ rest, u = afterRecv n a rest s := by
      rcases recv_cases n s with ⟨bs, rest, -, -, h⟩ | ⟨pre, rest, -, -, h⟩ | ⟨pre, -, -, h⟩ <;>
        cases h.symm.trans hu <;> exact ⟨rest, rfl⟩
    obtain ⟨rest, rfl⟩ := hrecv
    exact ⟨beq_iff_eq, rfl, rfl⟩

/-! ## The register-store mux -/

/-- The register enables belong to distinct tags: for each tag at most one can be on. -/
theorem writeEnables_oneHot (ok : Bool) (t l : Byte) (k : Bool) :
    ([(writeEnables .device ok t l k).weI8, (writeEnables .device ok t l k).weI16, (writeEnables .device ok t l k).weU16,
      (writeEnables .device ok t l k).weI32, (writeEnables .device ok t l k).weU32, (writeEnables .device ok t l k).weF32,
      (writeEnables .device ok t l k).weRaw].filter id).length ≤ 1 := by
  cases hn : Config.device.isNative t with
  | false =>
    obtain ⟨h1, h2, h3, h4, h5, h6, h7⟩ := (isNative_eq_false_iff t).mp hn
    simp [writeEnables, Config.device, h1, h2, h3, h4, h5, h6, h7]
  | true =>
    obtain rfl | rfl | rfl | rfl | rfl | rfl | rfl := (isNative_iff t).mp hn <;>
      simp [writeEnables, Config.device, List.filter_cons] <;> split <;> simp

/-- What the mux stores, by we_last. -/
theorem muxStore_eq (ok : Bool) (t l : Byte) (k : Bool) (stage : List Byte) (r : Retained) :
    muxStore .device (writeEnables .device ok t l k) t stage r =
      if (writeEnables .device ok t l k).weLast then acceptedEffect t stage r else r := by
  split
  · exact muxStore_on stage r ‹_›
  · exact muxStore_off stage r (Bool.of_not_eq_true ‹_›)

/-- The mux's hook line is `k`: low with no hook installed, the answer with one that answers, anything for a native tag. -/
def HookLine (s : State) (t : Byte) (k : Bool) : Prop :=
  Config.device.isNative t = true ∨ (s.retained.hook = none ∧ k = false) ∨
    (s.retained.hook ≠ none ∧ ∃ (ports : List Port) (rest : List HookEvent),
      s.env.hookIn = ports.map HookEvent.reads ++ .answers k :: rest)

/-- For a tag that is not native, an installed hook's run answers the line. -/
theorem HookLine.runHook {s : State} {t : Byte} {k : Bool} {h : HookId} (hk : HookLine s t k)
    (hn : Config.device.isNative t = false) (hh : s.retained.hook = some h) :
    ∃ rest, runHook s.env.hookIn = .answered k rest := by
  rcases hk with hn' | ⟨hnone, -⟩ | ⟨-, ports, rest, hin⟩
  · exact absurd (hn.symm.trans hn') nofun
  · exact absurd (hnone.symm.trans hh) nofun
  · exact ⟨rest, by rw [hin, runHook_answers]⟩

/-- The command answers a next state, and it and the mux decide alike. -/
theorem ExecCase.handled_eq_weLast {t : Byte} {p : List Byte} {c : Byte} {s : State} {k : Bool} {o : StepResult}
    (h : ExecCase t p c s o) (hp : p.length ≤ 255) (hk : HookLine s t k) :
    ∃ u, o = .next u ∧
      u.transient.handled = (writeEnables .device (c == rightChecksum t p) t (lenByte p) k).weLast := by
  rw [writeEnables_weLast hp]
  cases h with
  | crc s1 h1 hc => exact ⟨_, rfl, by simp [hc]⟩
  | stored s1 h1 f hc hn hl => exact ⟨_, rfl, by simp [hc, hn]; exact hl⟩
  | length s1 h1 hc hn w hw hl => exact ⟨_, rfl, by simp [hc, hn, hw, hl]⟩
  | noHook s1 h1 hc hn hh =>
    have hlow : k = false := by
      rcases hk with hn' | ⟨-, hlow⟩ | ⟨hne, -⟩
      · exact absurd (hn.symm.trans hn') nofun
      · exact hlow
      · exact absurd hh hne
    exact ⟨_, rfl, by simp [hn, hlow]⟩
  | asked s1 h1 hc hn h hh ports b rest hin =>
    obtain ⟨rest', hrun⟩ := hk.runHook hn hh
    rw [hin, runHook_answers] at hrun
    cases hrun
    refine ⟨_, rfl, ?_⟩
    cases k <;> simp [finishHook, hc, hn]
  | silent hc hn h hh ports hin =>
    obtain ⟨rest', hrun⟩ := hk.runHook hn hh
    rw [hin, runHook_silent] at hrun
    cases hrun
  | reentry hc hn h hh ports r rest hin =>
    obtain ⟨rest', hrun⟩ := hk.runHook hn hh
    rw [hin, runHook_reenters] at hrun
    cases hrun

/-- Settles O20: HANDLED is we_last, and by it the command and the mux make the same change. -/
theorem registerStoreMuxAgreesWithTheCommands : Obligations.RegisterStoreMuxAgreesWithTheCommands := by
  intro s t c p k hp
  refine ⟨writeEnables_oneHot _ t _ k, rfl, fun halt => ?_⟩
  have hk : HookLine s t k := halt.imp_left fun ht => (isNative_iff t).mpr (by simpa using ht)
  have hcase := exec_frame_cases t p c s
  obtain ⟨u, hu, hlast⟩ := hcase.handled_eq_weLast hp hk
  rw [hu] at hcase
  obtain ⟨hr, evs, htr, hs⟩ := hcase.decided
  rw [hlast] at hr hs
  exact ⟨u, evs, hu, hr.trans (muxStore_eq ..).symm, hlast, htr, hs⟩

end Sys2Proof.Machine
end

section
/-!
The commands for any record of parameters that fits the machine (00_scope.md R5, D17), and this hardware's record.
-/

namespace Sys2Proof.Machine

variable {cfg : Config}

/-! ## The shared operations, for any record -/

theorem endsWith_raiseDeviceErrorWith {s s1 : State} {k : ErrorKind} {t : Byte} (hr : s1.retained = s.retained)
    (he : s1.env = s.env) (htr : s1.trace = s.trace) (hk : errorTag cfg k t = t) :
    endsWith s.retained [.err t] s.env false s (.next (raiseDeviceError cfg k t s1)) :=
  ⟨_, rfl, hr, by rw [raiseDeviceError_trace, htr, hk], he, rfl, rfl, rfl⟩

theorem endsWith_acceptWith {s s1 : State} (t : Byte) {f : Retained → Retained} (hr : s1.retained = s.retained)
    (he : s1.env = s.env) (htr : s1.trace = s.trace) :
    endsWith { f s.retained with lastCmd := t } [.send [cfg.respAck]] s.env true s (.next (accept cfg t f s1)) :=
  ⟨_, rfl, by rw [accept_retained, hr]; rfl, by rw [accept_trace, htr], he, rfl, rfl, rfl⟩

/-- With the record's checksum the packet goes on. -/
theorem withChecksum_packetCrc (t : Byte) (p : List Byte) (s : State) (k : State → StepResult) :
    withChecksum cfg t p (packetCrc cfg t p) s k = k (setCrcOk cfg t p (packetCrc cfg t p) s) := by
  simp [withChecksum]

/-- With any other it is a device error and nothing else. -/
theorem endsWith_withChecksum_wrong {t : Byte} {p : List Byte} {c : Byte} (hc : c ≠ packetCrc cfg t p) (s : State)
    (k : State → StepResult) : endsWith s.retained [.err t] s.env false s (withChecksum cfg t p c s k) := by
  rw [withChecksum, if_neg (by simpa using hc.symm)]
  exact endsWith_raiseDeviceErrorWith rfl rfl rfl (k := .crc) rfl

/-- The fixed-width rule of a record. -/
theorem endsWith_storeFixedWith (t : Byte) (w : Nat) (f : Retained → Retained) (p : List Byte) (s : State) :
    if p.length = w then
      endsWith { f s.retained with lastCmd := t } [.send [cfg.respAck]] s.env true s
        (storeFixed cfg t w f p (packetCrc cfg t p) s)
    else endsWith s.retained [.err t] s.env false s (storeFixed cfg t w f p (packetCrc cfg t p) s) := by
  rw [storeFixed, withChecksum_packetCrc]
  split
  · rw [if_pos (by simpa)]
    exact endsWith_acceptWith t rfl rfl rfl
  · rw [if_neg (by simpa)]
    exact endsWith_raiseDeviceErrorWith rfl rfl rfl (k := .len) rfl

/-- The structured command of a record. -/
theorem endsWith_execSetStructWith (p : List Byte) (s : State) :
    endsWith { s.retained with
        rawBuf := p.take cfg.rawCap, rawLen := BitVec.ofNat 6 (min p.length cfg.rawCap), lastCmd := cfg.tagStruct }
      [.send [cfg.respAck]] s.env true s (execSetStructWith cfg p (packetCrc cfg cfg.tagStruct p) s) := by
  rw [execSetStructWith, withChecksum_packetCrc, Nat.min_comm, ← List.length_take]
  exact endsWith_acceptWith cfg.tagStruct (f := writeRaw (p.take cfg.rawCap)) rfl rfl rfl

/-- EXT of a record, with no hook installed. -/
theorem endsWith_execExtWith_noHook (t : Byte) (p : List Byte) {s : State} (hh : s.retained.hook = none) :
    endsWith s.retained [.err t] s.env false s (execExtWith cfg t p (packetCrc cfg t p) s) := by
  simp only [execExtWith, withChecksum_packetCrc, setCrcOk_retained, hh]
  exact endsWith_raiseDeviceErrorWith rfl rfl rfl (k := .unk) rfl

/-- Every frame's execution begins with the checksum's decision, whatever the record. -/
theorem execWith_frame_withChecksum (t : Byte) (p : List Byte) (c : Byte) (s : State) :
    ∃ k, execWith cfg (frameInstr cfg t p c) s = withChecksum cfg t p c s k := by
  unfold frameInstr
  split_ifs with hU16 hI16 hI8 hI32 hF32 hU32 hStruct
  case neg =>
    rw [execWith, execExtWith]
    exact ⟨_, rfl⟩
  all_goals
    subst t
    simp only [execWith, execSetU16With, execSetI16With, execSetI8With, execSetI32With, execSetF32With, execSetU32With,
      execSetStructWith, storeFixed]
    exact ⟨_, rfl⟩

/-- Settles O59: the checksum's decision, then the rule of the one command that the tag of a valid record selects. -/
theorem commandsFollowTheParameterRecord : Obligations.CommandsFollowTheParameterRecord := by
  intro cfg s t c p hv rejected accepted
  obtain ⟨hnodup, -, -, -, hI8, hI16, hU16, hI32, hU32, hF32⟩ := cfg.valid_iff.mp hv
  obtain ⟨iU16, iI16, iI8, iI32, iF32, iU32, iStruct⟩ := frameInstr_native hnodup p c
  refine ⟨fun hc => ?_, ?_⟩
  · obtain ⟨k, hk⟩ := execWith_frame_withChecksum (cfg := cfg) t p c s
    simp only [rejected, hk]
    exact endsWith_withChecksum_wrong hc s k
  rintro rfl
  simp only [rejected, accepted]
  refine ⟨?_, ?_, ?_, ?_, ?_, ?_, ?_, fun hn hh => ?_⟩
  · rintro rfl
    rw [iI8, ← hI8]
    exact endsWith_storeFixedWith cfg.tagInt8 cfg.wI8 (writeI8 (operand8 p)) p s
  · rintro rfl
    rw [iI16, ← hI16]
    exact endsWith_storeFixedWith cfg.tagInt16 cfg.wI16 (writeI16 (operand16 p)) p s
  · rintro rfl
    rw [iU16, ← hU16]
    exact endsWith_storeFixedWith cfg.tagUint16 cfg.wU16 (writeU16 (operand16 p)) p s
  · rintro rfl
    rw [iI32, ← hI32]
    exact endsWith_storeFixedWith cfg.tagInt32 cfg.wI32 (writeI32 (operand32 p)) p s
  · rintro rfl
    rw [iU32, ← hU32]
    exact endsWith_storeFixedWith cfg.tagUint32 cfg.wU32 (writeU32 (operand32 p)) p s
  · rintro rfl
    rw [iF32, ← hF32]
    exact endsWith_storeFixedWith cfg.tagFloat32 cfg.wF32 (writeF32 (operand32 p)) p s
  · rintro rfl
    rw [iStruct]
    exact endsWith_execSetStructWith p s
  · rw [frameInstr_foreign hn]
    exact endsWith_execExtWith_noHook t p hh

/-! ## This hardware's record -/

theorem decodeTableWord_eq (nbits w : Nat) :
    decodeTableWord nbits w = (decode .device (tablePacket .device nbits w)).toOption.map Prod.fst := by
  rw [decodeTableWord]
  cases decode .device (tablePacket .device nbits w) <;> rfl

/-- Settles O58: each parameter by its definition; the machine of the record is this hardware's. -/
theorem thisHardwareHasTheTablesParameters : Obligations.ThisHardwareHasTheTablesParameters :=
  ⟨rfl, rfl, rfl, rfl, rfl, rfl, rfl, rfl, rfl, rfl, rfl, rfl, rfl, rfl, rfl, rfl, rfl, rfl, rfl, rfl, rfl, rfl, rfl, rfl,
    rfl, rfl, Config.device_valid, fun i s => (execWith_device i s).symm, fun _ => rfl, rfl, decodeTableWord_eq⟩

end Sys2Proof.Machine
end

section
/-!
The Packet Receiver (20_memory.md R41; 40_framing.md R80 to R86): one request, and the polls that a read or a foreign selector
ends.
-/

namespace Sys2Proof.Machine

/-! ## One request -/

/-- Settles O26: the three answers exclude each other, and each port makes one of them. -/
theorem recvIsAllOrNothing : Obligations.RecvIsAllOrNothing := by
  intro n rx
  have hcases := takeRx_cases n rx
  refine ⟨fun bs rest => ⟨fun h => ?_, ?_⟩, fun rest => ⟨fun h => ?_, ?_⟩, fun h => ?_, ?_⟩
  · rw [h] at hcases
    rcases hcases with ⟨_, _, hl, hrx, ⟨⟩⟩ | ⟨_, _, -, -, ⟨⟩⟩ | ⟨_, -, -, ⟨⟩⟩
    exact ⟨hl, hrx⟩
  · rintro ⟨rfl, rfl⟩
    exact takeRx_bytes bs rest
  · rw [h] at hcases
    rcases hcases with ⟨_, _, -, -, ⟨⟩⟩ | ⟨pre, _, hl, hrx, ⟨⟩⟩ | ⟨_, -, -, ⟨⟩⟩
    exact ⟨pre, hl, hrx⟩
  · rintro ⟨pre, hl, rfl⟩
    exact takeRx_fail pre rest hl
  · rw [h] at hcases
    rcases hcases with ⟨_, _, -, -, ⟨⟩⟩ | ⟨_, _, -, -, ⟨⟩⟩ | ⟨pre, hl, hrx, -⟩
    exact ⟨pre, hl, hrx⟩
  · rintro ⟨pre, hl, rfl⟩
    exact takeRx_short pre hl

/-! ## The selector, the header and the checksum byte -/

/-- Settles O18: a foreign selector's execution only ends the poll, and its fetch takes the one byte. -/
theorem foreignSelectorIsIgnored : Obligations.ForeignSelectorIsIgnored := by
  refine ⟨fun s sel _ => ⟨_, rfl, rfl, (List.append_nil _).symm, rfl, rfl, rfl⟩, fun s ops sel more hs hready hrx => ?_⟩
  have hfetch := fetch_foreign (s := startPoll (dropOwner s)) hs hrx
  refine ⟨endPoll (afterSelector .device sel more (startPoll (dropOwner s))), ?_, rfl, rfl, ?_, rfl, rfl⟩
  · rw [step_pollReady hready, poll, hfetch]
    rfl
  · change { (dropOwner s).env with rx := more } = _
    rw [dropOwner_env_of_pollReady hready]

/-- Settles O27: the fetch ends with the failed selector read. -/
theorem noDataIsNoError : Obligations.NoDataIsNoError := by
  intro s ops more hready hrx
  have hfetch := fetch_noFrame (s := startPoll (dropOwner s)) hrx
  refine ⟨⟨endPoll (afterRecv 1 .fail more (startPoll (dropOwner s))), ?_, rfl, rfl, ?_, rfl, rfl⟩, ?_⟩
  · rw [step_pollReady hready, poll, hfetch]
  · change { (dropOwner s).env with rx := more } = _
    rw [dropOwner_env_of_pollReady hready]
  · rw [pollOutcome, hfetch]

/-- Settles O30: the fetch ends in the checksum byte's error, after the payload's request if there is a payload. -/
theorem checksumByteFailureHasThePacketsTag : Obligations.ChecksumByteFailureHasThePacketsTag := by
  intro s ops t p more hready hp hrx
  have hfetch := fetch_checksumFails (s := startPoll (dropOwner s)) hp hrx
  have h := endsWith_step_of_fetch_raises
    (evs := [Event.recv 1 (.ok [0x01#8]), .recv 2 (.ok [t, lenByte p])] ++ payloadEvents p ++ [Event.recv 1 .fail])
    hready hfetch rfl (by simp [afterHead, afterPayload, Config.device_selSendVariable]) rfl
  simpa [payloadEvents, errorTag, lenByte] using h

/-- A LEN above the staging capacity ends the header read in the capacity's error. -/
theorem readHeader_overCapacity {cfg : Config} {s : State} {t l : Byte} {more : List RxEvent}
    (hrx : s.env.rx = onPort [t, l] ++ more) (hcap : cfg.stageCap < l.toNat) :
    readHeader cfg s = .ended (.readFailure t) (raiseDeviceError cfg .cap t
      { afterRecv 2 (.ok [t, l]) more s with transient := { s.transient with rxFail := false, fType := t, fLen := l } }) := by
  have hrecv : recv 2 s = some (.ok [t, l], afterRecv 2 (.ok [t, l]) more s) :=
    recv_answered (by rw [hrx]; exact takeRx_bytes [t, l] more)
  simp [readHeader, hrecv, byteAt, hcap]

/-- Settles O31: the capacity check at any record; this hardware's header read ends by a failed request alone. -/
theorem capacityRejectHasThePacketsTag : Obligations.CapacityRejectHasThePacketsTag := by
  refine ⟨fun cfg s t l more hrx hcap => ⟨_, readHeader_overCapacity hrx hcap, rfl, rfl, ?_, rfl⟩, fun s u o h => ?_⟩
  · simp [errorTag]
  · rcases readHeader_cases (cfg := .device) (by decide) s with
        ⟨t, l, rest, -, hr⟩ | ⟨pre, rest, -, -, hr⟩ | ⟨pre, -, -, hr⟩ <;>
      cases hr.symm.trans h
    rfl

/-! ## The step that polls, and the decoder -/

/-- Settles O24: the bytes that decode are a frame's or a foreign selector, and the fetch reads just those. -/
theorem stepRunsTheDecodedInstruction : Obligations.StepRunsTheDecodedInstruction := by
  intro s ops bs left i more hready hdec hrx
  have henv : ∀ rx, { (dropOwner s).env with rx := rx } = { s.env with owner := ops, rx := rx } := fun rx => by
    rw [dropOwner_env_of_pollReady hready]
  rcases decode_ok_cases hdec with ⟨t, p, c, hp, rfl, rfl⟩ | ⟨sel, hs, rfl, rfl⟩
  · have hrx' : (dropOwner s).env.rx = onPort (frameBytes t p c) ++ (onPort left ++ more) := by
      rw [← List.append_assoc, ← onPort_append]
      exact hrx
    refine ⟨afterFrame t p c (onPort left ++ more) (startPoll (dropOwner s)), ?_, rfl, ?_, henv _, rfl, ?_⟩
    · rw [step_pollReady hready, poll_frame hp hrx']
    · rw [recvEvents_frameInstr]
      rfl
    · intro t' ht'
      rw [frameInstr_tag] at ht'
      cases ht'
      rw [frameInstr_payload]
      exact ⟨rfl, rfl, rfl⟩
  · have hfetch := fetch_foreign (s := startPoll (dropOwner s)) hs hrx
    refine ⟨afterSelector .device sel (onPort left ++ more) (startPoll (dropOwner s)), ?_, rfl, rfl, henv _, rfl, nofun⟩
    rw [step_pollReady hready, poll, hfetch]
    rfl

end Sys2Proof.Machine
end

section
/-!
A word of the opcode table as the next instruction (30_encoding.md R75; log 23): its bytes are exactly one packet.
-/

namespace Sys2Proof.Machine

theorem bigEndianBytes_length (n w : Nat) : (bigEndianBytes n w).length = n := by
  induction n with
  | zero => rfl
  | succ n ih => rw [bigEndianBytes, List.length_cons, ih]

/-- Any sequence of 259 bytes or more, cut to the packet at its head, is one packet. -/
theorem decode_take_packetLength {bs : List Byte} (hlen : 259 ≤ bs.length) :
    ∃ i, decode .device (bs.take (packetLength .device bs)) = .ok (i, []) := by
  match bs, hlen with
  | sel :: t :: l :: body, hlen =>
    by_cases hs : sel = Config.device.selSendVariable
    · subst hs
      have hlt := l.isLt
      have hbody : l.toNat < body.length := by
        simp only [List.length_cons] at hlen
        omega
      refine ⟨frameInstr .device t (body.take l.toNat) body[l.toNat], ?_⟩
      have hp : (body.take l.toNat).length = l.toNat := by rw [List.length_take]; omega
      have htake : (Config.device.selSendVariable :: t :: l :: body).take
          (packetLength .device (Config.device.selSendVariable :: t :: l :: body)) =
            Config.device.selSendVariable :: t :: l :: body.take l.toNat ++ [body[l.toNat]] := by
        rw [packetLength, if_pos rfl, Nat.add_comm]
        simp [List.take_succ_cons, List.take_append_getElem]
      rw [htake]
      exact decode_frame_device hp []
    · refine ⟨.ignoreSelector sel, ?_⟩
      have htake : (sel :: t :: l :: body).take (packetLength .device (sel :: t :: l :: body)) = [sel] := by
        rw [packetLength, if_neg hs]
        rfl
      rw [htake]
      exact decode_foreign (cfg := .device) hs []

theorem decode_tablePacket (nbits w : Nat) : ∃ i, decode .device (tablePacket .device nbits w) = .ok (i, []) := by
  refine decode_take_packetLength ?_
  rw [List.length_append, List.length_replicate, Config.device_lenMax]
  omega

/-- Settles O25: the word's packet decodes with nothing left, so O24's step consumes exactly it. -/
theorem tableWordIsWhatTheNextStepRuns : Obligations.TableWordIsWhatTheNextStepRuns := by
  intro s nbits w
  obtain ⟨i, hdec⟩ := decode_tablePacket nbits w
  have hready : pollReady (s.withFetchWord nbits w) s.env.owner := ⟨rfl, rfl⟩
  obtain ⟨s1, hstep, hr, htr, henv, -⟩ := stepRunsTheDecodedInstruction _ _ _ _ _ s.env.rx hready hdec rfl
  exact ⟨i, s1, by rw [decodeTableWord, hdec], hstep, hr, henv, htr⟩

end Sys2Proof.Machine
end

section
/-!
What a poll appends, consumes and leaves, by its outcome (40_framing.md R88, R90, R92), and when it ends (70_reset_and_hazards.md
R208).
-/

namespace Sys2Proof.Machine

/-! ## The events of a poll, by its outcome -/

/-- A poll that no dispatch decided has its row of the table of R88; its outcome is none of the dispatcher's. -/
theorem QuietEvents.row {o : PollOutcome} {l : Byte} {evs : List Event} (h : QuietEvents o l evs) :
    (o = .noFrame ∧ evs = [.recv 1 .fail]) ∨
    (o = .otherSelector ∧ ∃ b, b ≠ 0x01#8 ∧ evs = [.recv 1 (.ok [b])]) ∨
    ∃ tag, o = .readFailure tag ∧
      ((tag = 0x00#8 ∧ evs = [.recv 1 (.ok [0x01#8]), .recv 2 .fail, .err 0x00#8]) ∨
       (∃ l : Byte, l ≠ 0 ∧
         evs = [.recv 1 (.ok [0x01#8]), .recv 2 (.ok [tag, l]), .recv l.toNat .fail, .err tag]) ∨
       (∃ p : List Byte, p.length ≤ 255 ∧
         evs = [Event.recv 1 (.ok [0x01#8]), .recv 2 (.ok [tag, BitVec.ofNat 8 p.length])] ++
           (if p = [] then [] else [Event.recv p.length (.ok p)]) ++ [Event.recv 1 .fail, .err tag])) := by
  rcases h with h | ⟨rfl, b, hb, rfl⟩ | ⟨rfl, rfl⟩ | ⟨t, l, hl, rfl, rfl⟩ | ⟨t, p, hp, rfl, -, rfl⟩
  · exact .inl h
  · exact .inr (.inl ⟨rfl, b, hb, rfl⟩)
  · exact .inr (.inr ⟨0, rfl, .inl ⟨rfl, rfl⟩⟩)
  · exact .inr (.inr ⟨t, rfl, .inr (.inl ⟨l, hl, rfl⟩)⟩)
  · exact .inr (.inr ⟨t, rfl, .inr (.inr ⟨p, hp, rfl⟩)⟩)

/-- Settles O32: each case of the poll is a row of the table. -/
theorem outcomeDeterminesEventsAndState : Obligations.OutcomeDeterminesEventsAndState := by
  intro s t hpoll
  have hcase := poll_next_cases hpoll
  generalize pollOutcome .device s = oc at hcase
  cases hcase with
  | quiet o u evs hr htr hb hq hst ho =>
    refine ⟨o, evs, rfl, htr, ?_⟩
    rcases ho.row with ⟨rfl, hevs⟩ | ⟨rfl, b, hb, hevs⟩ | ⟨tag, rfl, hrow⟩
    · exact ⟨hevs, hr⟩
    · exact ⟨b, hb, hevs, hr⟩
    · exact ⟨hr, hrow⟩
  | rejected tag p c hk u hp hr htr hb hq hst hl hk' => exact ⟨_, _, rfl, htr, hr, p, c, hk, hp, hk', rfl⟩
  | accepted tag p c hk u hp hr htr hb hq hst hl hk' hh hc =>
    exact ⟨_, _, rfl, htr, p, c, hk, hp, hk', rfl, hc, hr⟩

/-! ## The bytes a poll consumes -/

theorem bytesConsumed_append (a b : List Event) : bytesConsumed (a ++ b) = bytesConsumed a + bytesConsumed b := by
  simp [bytesConsumed]

theorem bytesConsumed_frameEvents (t : Byte) (p : List Byte) (c : Byte) :
    bytesConsumed (frameEvents .device t p c) = 4 + p.length := by
  by_cases hp : p = [] <;> simp [frameEvents, hp, bytesConsumed, recvs, delivered]
  omega

/-- The hook's call and the last event of a dispatched packet take no byte. -/
theorem bytesConsumed_dispatched {t : Byte} {p : List Byte} {c : Byte} {hk : List Event} {b : Bool} {e : Event}
    (h : hk = [] ∨ hk = [.hook t b]) (he : bytesConsumed [e] = 0) :
    bytesConsumed (frameEvents .device t p c ++ hk ++ [e]) = 4 + p.length := by
  have hk0 : bytesConsumed hk = 0 := by rcases h with rfl | rfl <;> rfl
  rw [bytesConsumed_append, bytesConsumed_append, bytesConsumed_frameEvents, hk0, he,
    Nat.add_zero]

/-- Settles O35: the bytes of each row of the table. -/
theorem bytesConsumedByOutcome : Obligations.BytesConsumedByOutcome := by
  intro s t hpoll
  have hcase := poll_next_cases hpoll
  generalize pollOutcome .device s = oc at hcase
  cases hcase with
  | quiet o u evs hr htr hb hq hst ho =>
    refine ⟨o, evs, rfl, htr, ?_⟩
    rcases ho with ⟨rfl, rfl⟩ | ⟨rfl, b, -, rfl⟩ | ⟨rfl, rfl⟩ | ⟨tag, l, -, rfl, rfl⟩ | ⟨tag, p, -, rfl, hl, rfl⟩
    · rfl
    · rfl
    · exact .inl rfl
    · exact .inr (.inl rfl)
    · refine .inr (.inr ?_)
      rw [hl]
      by_cases hp : p = [] <;> simp [hp, bytesConsumed, recvs, delivered]
      omega
  | rejected tag p c hk u hp hr htr hb hq hst hl hk' =>
    exact ⟨_, _, rfl, htr, by rw [hl]; exact bytesConsumed_dispatched hk' rfl⟩
  | accepted tag p c hk u hp hr htr hb hq hst hl hk' =>
    exact ⟨_, _, rfl, htr, by rw [hl]; exact bytesConsumed_dispatched hk' rfl⟩

/-! ## The end of a poll -/

/-- Settles O38: every case of the poll that is a next state is between polls, with hook_req low. -/
theorem pollRunsToCompletion : Obligations.PollRunsToCompletion := by
  intro s t hpoll
  have hend : betweenPolls t ∧ t.transient.hookReq = false := by
    have hcase := poll_next_cases hpoll
    generalize pollOutcome .device s = oc at hcase
    cases hcase with
    | quiet _ _ _ _ _ hb hq => exact ⟨hb, hq⟩
    | rejected _ _ _ _ _ _ _ _ hb hq => exact ⟨hb, hq⟩
    | accepted _ _ _ _ _ _ _ _ hb hq => exact ⟨hb, hq⟩
  obtain ⟨hb, hq⟩ := hend
  exact ⟨hb, ((betweenPolls_iff t).mp hb).2, hq⟩

theorem QuietEvents.requests_le {o : PollOutcome} {l : Byte} {evs : List Event} (h : QuietEvents o l evs) :
    (recvs evs).length ≤ 4 ∧ (hookCalls evs).length ≤ 1 := by
  rcases h with ⟨rfl, rfl⟩ | ⟨rfl, b, -, rfl⟩ | ⟨rfl, rfl⟩ | ⟨t, l, -, rfl, rfl⟩ | ⟨t, p, -, rfl, -, rfl⟩
  case inr.inr.inr.inr => by_cases hp : p = [] <;> simp [hp, recvs, hookCalls]
  all_goals simp [recvs, hookCalls]

theorem requests_dispatched_le {t : Byte} {p : List Byte} {c : Byte} {hk : List Event} {b : Bool} {e : Event}
    (h : hk = [] ∨ hk = [.hook t b]) (hr : recvs [e] = []) (hh : hookCalls [e] = []) :
    (recvs (frameEvents .device t p c ++ hk ++ [e])).length ≤ 4 ∧
      (hookCalls (frameEvents .device t p c ++ hk ++ [e])).length ≤ 1 := by
  have hkr : recvs hk = [] := by rcases h with rfl | rfl <;> rfl
  have hkh : (hookCalls hk).length ≤ 1 := by rcases h with rfl | rfl <;> simp [hookCalls]
  rw [recvs_append, recvs_append, hkr, hr, hookCalls_append, hookCalls_append, hookCalls_frameEvents, hh]
  simpa using ⟨recvs_frameEvents_length t p c, hkh⟩

/-- All that a poll can do but end in its reads: wait for the transport, or execute what it fetched. -/
theorem poll_ends_or_waits_or_executes (s : State) :
    (∃ u, poll .device s = .next u) ∨
    (poll .device s = .fault .transportUnanswered ∧ ∃ bs e, s.env.rx = onPort bs ∧ decode .device bs = .error e) ∨
    (∃ i u, poll .device s = exec i u ∧ u.retained = s.retained ∧ u.env.hookIn = s.env.hookIn) := by
  have hfetch := fetch_cases (startPoll s)
  rw [poll]
  generalize fetch .device (startPoll s) = f at hfetch
  cases hfetch with
  | frame t p c rest hp hrx => exact .inr (.inr ⟨_, _, execWith_device _ _, rfl, rfl⟩)
  | foreign sel rest hs hrx => exact .inl ⟨_, rfl⟩
  | noFrame rest hrx => exact .inl ⟨_, rfl⟩
  | header pre rest hpre hrx => exact .inl ⟨_, rfl⟩
  | payload t l pre rest hpre hrx => exact .inl ⟨_, rfl⟩
  | checksum t p rest hp hrx => exact .inl ⟨_, rfl⟩
  | unanswered bs e hrx hd => exact .inr (.inl ⟨rfl, bs, e, hrx, hd⟩)

/-- A sequence that ends inside its packet has fewer than 259 bytes. -/
theorem length_lt_of_decode_error {bs : List Byte} {e : DecodeError} (h : decode .device bs = .error e) :
    bs.length < 259 := by
  rcases (onlyShortSequencesFailToDecode bs).mp ⟨e, h⟩ with rfl | ⟨r, rfl, hr⟩ | ⟨t, l, r, rfl, hr⟩
  · decide
  · simp only [List.length_cons]
    omega
  · have hl := l.isLt
    simp only [List.length_cons]
    omega

/-- An instruction ends when the hook, if one is installed, answers. -/
theorem exec_next_of_answers {s : State} {ports : List Port} {b : Bool} {rest : List HookEvent}
    (h : s.retained.hook ≠ none → s.env.hookIn = ports.map HookEvent.reads ++ .answers b :: rest) (i : Instr) :
    ∃ t, exec i s = .next t := by
  have hanswers : s.retained.hook ≠ none → runHook s.env.hookIn = .answered b rest := fun hh => by
    rw [h hh, runHook_answers]
  have hcase := exec_instrCase i s
  generalize exec i s = o at hcase
  cases hcase with
  | silent t p hi hh ports' hin =>
    have hrun := hanswers hh
    rw [hin, runHook_silent] at hrun
    cases hrun
  | reentry t p hi hh r ports' rest' hin =>
    have hrun := hanswers hh
    rw [hin, runHook_reenters] at hrun
    cases hrun
  | _ => exact ⟨_, rfl⟩

/-- Settles O39: the counts of each case; and 259 port events leave no request waiting. -/
theorem pollIsBoundedAndEndsWhenAnswered : Obligations.PollIsBoundedAndEndsWhenAnswered := by
  refine ⟨fun s t hpoll => ?_, fun s ports b rest hlen hhook => ?_⟩
  · have hcase := poll_next_cases hpoll
    generalize pollOutcome .device s = oc at hcase
    cases hcase with
    | quiet o u evs hr htr hb hq hst ho => exact ⟨evs, htr, ho.requests_le⟩
    | rejected tag p c hk u hp hr htr hb hq hst hl hk' => exact ⟨_, htr, requests_dispatched_le hk' rfl rfl⟩
    | accepted tag p c hk u hp hr htr hb hq hst hl hk' => exact ⟨_, htr, requests_dispatched_le hk' rfl rfl⟩
  · rcases poll_ends_or_waits_or_executes s with hends | ⟨-, bs, e, hrx, hdec⟩ | ⟨i, u, hexec, hr, hin⟩
    · exact hends
    · have hshort := length_lt_of_decode_error hdec
      rw [hrx, onPort, List.length_map] at hlen
      omega
    · rw [hexec]
      exact exec_next_of_answers (by rwa [hr, hin]) i

/-- Settles O42: an execution never waits for the transport, and the fetch does exactly on such a port. -/
theorem unansweredRequestHangsThePoll : Obligations.UnansweredRequestHangsThePoll := by
  intro s
  constructor
  · intro hpoll
    rcases poll_ends_or_waits_or_executes s with ⟨u, hends⟩ | ⟨-, hport⟩ | ⟨i, u, hexec, -⟩
    · cases hends.symm.trans hpoll
    · exact hport
    · have hcase := hexec.symm.trans hpoll ▸ exec_instrCase i u
      cases hcase
  · rintro ⟨bs, e, hrx, hdec⟩
    rw [poll, fetch_unanswered (s := startPoll s) hdec hrx]

/-! ## The writers of the registers -/

/-- An accepted packet changes the register of its own tag's command, and LAST_CMD. -/
theorem tag_of_acceptedEffect_ne (t : Byte) (p : List Byte) (r : Retained) :
    ((acceptedEffect t p r).regI8 ≠ r.regI8 → t = 0x0F#8) ∧ ((acceptedEffect t p r).regI16 ≠ r.regI16 → t = 0x0E#8) ∧
    ((acceptedEffect t p r).regU16 ≠ r.regU16 → t = 0x0D#8) ∧ ((acceptedEffect t p r).regI32 ≠ r.regI32 → t = 0x10#8) ∧
    ((acceptedEffect t p r).regU32 ≠ r.regU32 → t = 0x12#8) ∧ ((acceptedEffect t p r).regF32 ≠ r.regF32 → t = 0x11#8) ∧
    ((acceptedEffect t p r).rawBuf ≠ r.rawBuf ∨ (acceptedEffect t p r).rawLen ≠ r.rawLen → t = 0x14#8) := by
  unfold acceptedEffect
  split_ifs with hI8 hI16 hU16 hI32 hU32 hF32 hRaw <;> simp [*]

/-- What a poll does to the retained state. -/
theorem poll_retained_cases {s t : State} (hpoll : poll .device s = .next t) :
    t.retained = s.retained ∨
      ∃ tag p, pollOutcome .device s = some (.accepted tag) ∧ t.retained = acceptedEffect tag p s.retained := by
  obtain ⟨o, evs, ho, -, h⟩ := (poll_next_cases hpoll).atomic
  rcases h with ⟨-, hr, -⟩ | ⟨tag, p, rfl, -, -, -, hr, -⟩
  · exact .inl hr
  · exact .inr ⟨tag, p, ho, hr⟩

/-- What a step from between polls, other than a reset, does to the retained state. -/
theorem step_retained_cases {s t : State} (hs : betweenPolls s) (hstep : step s = .next t)
    (hreset : s.env.owner.head? ≠ some .reset) :
    t.retained = s.retained ∨
    (∃ h, s.env.owner.head? = some (.installHook h) ∧ t.retained = { s.retained with hook := some h }) ∨
    ∃ tag p, stepAccepts s tag ∧ t.retained = acceptedEffect tag p s.retained := by
  have hidle := (betweenPolls_iff s).mp hs
  have hin : (dropOwner s).inPoll = false := hs
  rw [step, stepWith] at hstep
  cases howner : s.env.owner with
  | nil =>
    simp only [howner, tick_idle hidle.1 hidle.2] at hstep
    cases hstep
    exact .inl rfl
  | cons op ops =>
    simp only [howner] at hstep
    rw [howner] at hreset
    cases op with
    | poll =>
      rw [ownerStep, if_neg (by simp [hin])] at hstep
      rcases poll_retained_cases hstep with hr | ⟨tag, p, ho, hr⟩
      · exact .inl hr
      · exact .inr (.inr ⟨tag, p, ⟨by rw [howner]; rfl, ho⟩, hr⟩)
    | pollPulse =>
      rw [ownerStep, if_neg (by simp [hin])] at hstep
      cases hstep
      exact .inl rfl
    | wait =>
      rw [ownerStep, tick_idle (s := dropOwner s) hidle.1 hidle.2] at hstep
      cases hstep
      exact .inl rfl
    | installHook h =>
      rw [ownerStep, if_neg (by simp [hin])] at hstep
      cases hstep
      exact .inr (.inl ⟨h, rfl, rfl⟩)
    | reset => exact absurd rfl hreset
    | read port =>
      cases hstep
      exact .inl rfl

/-- Settles O49: no change, an installation, or an accepted packet's change, which its tag determines. -/
theorem eachRegisterHasOneWriter : Obligations.EachRegisterHasOneWriter := by
  intro s t hs hstep hreset
  rcases step_retained_cases hs hstep hreset with hr | ⟨h, hhead, hr⟩ | ⟨tag, p, hacc, hr⟩
  · simp [hr]
  · simp [hr, hhead]
  · obtain ⟨hI8, hI16, hU16, hI32, hU32, hF32, hRaw⟩ := tag_of_acceptedEffect_ne tag p s.retained
    rw [hr]
    refine ⟨fun h => hI8 h ▸ hacc, fun h => hI16 h ▸ hacc, fun h => hU16 h ▸ hacc, fun h => hI32 h ▸ hacc,
      fun h => hU32 h ▸ hacc, fun h => hF32 h ▸ hacc, fun h => hRaw h ▸ hacc, fun _ => ?_, fun h => ?_⟩
    · rwa [acceptedEffect_lastCmd]
    · exact absurd (acceptedEffect_hook tag p s.retained) h

end Sys2Proof.Machine
end

section
/-!
The dispatcher's decision reads no register (42_dispatch.md R110; 90_conflicts.md C4): what a poll does from two states that
differ in the retained state alone, a hook being installed in both or in neither.
-/

namespace Sys2Proof.Machine

/-- The same end but for the retained state. -/
inductive AlikeEnd : StepResult → StepResult → Prop where
  | next (u : State) (r : Retained) : AlikeEnd (.next u) (.next { u with retained := r })
  | fault (f : Fault) : AlikeEnd (.fault f) (.fault f)
  | refused (x : Refusal) : AlikeEnd (.refused x) (.refused x)

/-- A fetch with the retained state `r0`, which it leaves alone, and the same one with `r`. -/
inductive AlikeFetch (r0 r : Retained) : Fetched → Fetched → Prop where
  | unanswered : AlikeFetch r0 r .unanswered .unanswered
  | ended (o : PollOutcome) (u : State) : AlikeFetch r0 r (.ended o u) (.ended o { u with retained := r })
  | command (i : Instr) (u : State) (hu : u.retained = r0) :
      AlikeFetch r0 r (.command i u) (.command i { u with retained := r })

/-- The fetch depends on the port alone. -/
theorem fetch_alike (s : State) (r : Retained) :
    AlikeFetch s.retained r (fetch .device s) (fetch .device { s with retained := r }) := by
  have hf := fetch_cases s
  generalize fetch .device s = f at hf
  cases hf with
  | frame t p c rest hp hrx =>
    rw [fetch_frame (s := { s with retained := r }) hp hrx]
    exact .command _ _ rfl
  | foreign sel rest hs hrx =>
    rw [fetch_foreign (s := { s with retained := r }) hs hrx]
    exact .command _ _ rfl
  | noFrame rest hrx =>
    rw [fetch_noFrame (s := { s with retained := r }) hrx]
    exact .ended _ _
  | header pre rest hpre hrx =>
    rw [fetch_headerFails (s := { s with retained := r }) hrx (takeRx_fail pre rest hpre)]
    exact .ended _ _
  | payload t l pre rest hpre hrx =>
    rw [fetch_payloadFails (s := { s with retained := r }) hrx (takeRx_fail pre rest hpre)]
    exact .ended _ _
  | checksum t p rest hp hrx =>
    rw [fetch_checksumFails (s := { s with retained := r }) hp hrx]
    exact .ended _ _
  | unanswered bs e hrx hd =>
    rw [fetch_unanswered (s := { s with retained := r }) hd hrx]
    exact .unanswered

theorem storeFixed_alike (t : Byte) (w : Nat) (f : Retained → Retained) (p : List Byte) (c : Byte) (s : State)
    (r : Retained) :
    AlikeEnd (storeFixed .device t w f p c s) (storeFixed .device t w f p c { s with retained := r }) := by
  by_cases hc : c = rightChecksum t p
  · by_cases hl : p.length = w
    · rw [storeFixed_fits hc hl, storeFixed_fits hc hl]
      exact .next _ (writeLastCmd t (f r))
    · rw [storeFixed_misfits hc hl, storeFixed_misfits hc hl]
      exact .next _ r
  · rw [storeFixed, storeFixed, withChecksum_wrong hc, withChecksum_wrong hc]
    exact .next _ r

theorem execSetStruct_alike (p : List Byte) (c : Byte) (s : State) (r : Retained) :
    AlikeEnd (execSetStruct p c s) (execSetStruct p c { s with retained := r }) := by
  rw [execSetStruct, execSetStruct, execSetStructWith, execSetStructWith]
  by_cases hc : c = rightChecksum Config.device.tagStruct p
  · rw [withChecksum_right hc, withChecksum_right hc]
    exact .next _ (writeLastCmd Config.device.tagStruct (writeRaw (operandRaw .device p) r))
  · rw [withChecksum_wrong hc, withChecksum_wrong hc]
    exact .next _ r

theorem finishHook_alike (t : Byte) (b : Bool) (s : State) (r : Retained) :
    AlikeEnd (.next (finishHook .device t b s)) (.next (finishHook .device t b { s with retained := r })) := by
  cases b with
  | false => exact .next _ r
  | true => exact .next _ (writeLastCmd t r)

theorem execExt_alike (t : Byte) (p : List Byte) (c : Byte) {s : State} {r : Retained}
    (hh : r.hook = none ↔ s.retained.hook = none) :
    AlikeEnd (execExt t p c s) (execExt t p c { s with retained := r }) := by
  rw [execExt, execExt, execExtWith, execExtWith]
  by_cases hc : c = rightChecksum t p
  · rw [withChecksum_right hc, withChecksum_right hc]
    simp only [setCrcOk_retained, setCrcOk_env]
    cases hs : s.retained.hook with
    | none =>
      rw [hh.mpr hs]
      exact .next _ r
    | some h =>
      obtain ⟨h', hr⟩ := Option.ne_none_iff_exists'.mp fun hr => nomatch hs.symm.trans (hh.mp hr)
      rw [hr]
      cases runHook s.env.hookIn with
      | unanswered => exact .fault _
      | reentered x => exact .refused _
      | answered b rest => exact finishHook_alike t b (hookAnswered t b rest (setCrcOk .device t p c s)) r
  · rw [withChecksum_wrong hc, withChecksum_wrong hc]
    exact .next _ r

theorem exec_alike (i : Instr) {s : State} {r : Retained} (hh : r.hook = none ↔ s.retained.hook = none) :
    AlikeEnd (exec i s) (exec i { s with retained := r }) := by
  cases i with
  | ext t p c => exact execExt_alike t p c hh
  | setStruct p c => exact execSetStruct_alike p c s r
  | ignoreSelector sel => exact .next _ r
  | _ p c => exact storeFixed_alike _ _ _ p c s r

theorem poll_alike {s : State} {r : Retained} (hh : r.hook = none ↔ s.retained.hook = none) :
    AlikeEnd (poll .device s) (poll .device { s with retained := r }) ∧
      pollOutcome .device { s with retained := r } = pollOutcome .device s := by
  have hf : AlikeFetch s.retained r (fetch .device (startPoll s)) (fetch .device (startPoll { s with retained := r })) :=
    fetch_alike (startPoll s) r
  rw [poll, poll, pollOutcome, pollOutcome]
  generalize fetch .device (startPoll s) = f, fetch .device (startPoll { s with retained := r }) = f' at hf
  cases hf with
  | unanswered => exact ⟨.fault _, rfl⟩
  | ended o u => exact ⟨.next _ _, rfl⟩
  | command i u hu =>
    have hx := exec_alike i (s := u) (hu ▸ hh)
    simp only [execWith_device]
    generalize exec i u = x, exec i { u with retained := r } = x' at hx
    cases hx with
    | next v r' => exact ⟨.next _ _, rfl⟩
    | fault f => exact ⟨.fault _, rfl⟩
    | refused y => exact ⟨.refused _, rfl⟩

/-- Settles O51: the fetch and the execution are alike, so the poll is. -/
theorem decisionIgnoresTheRegisters : Obligations.DecisionIgnoresTheRegisters := by
  intro s r hh
  obtain ⟨hend, hout⟩ := poll_alike hh
  refine ⟨hout, fun t ht => ?_⟩
  rw [ht] at hend
  generalize poll .device { s with retained := r } = o at hend
  cases hend with
  | next _ r' => exact ⟨_, rfl, rfl, rfl⟩

end Sys2Proof.Machine
end

section
/-!
The owner's operations (43_response_hook.md R148, R149, R152; 70_reset_and_hazards.md R190 to R203): a step is the owner's next
operation, or with none pending a transition of the sequencer.
-/

namespace Sys2Proof.Machine

/-! ## The step, by the owner's next operation -/

theorem dropOwner_eq {s : State} {op : OwnerOp} {ops : List OwnerOp} (h : s.env.owner = op :: ops) :
    dropOwner s = { s with env := { s.env with owner := ops } } := by
  rw [dropOwner, h, List.tail_cons]

theorem step_noOperation {s : State} (h : s.env.owner = []) : step s = tick .device s := by
  rw [step, stepWith, h]

theorem step_operation {s : State} {op : OwnerOp} {ops : List OwnerOp} (h : s.env.owner = op :: ops) :
    step s = ownerStep .device op { s with env := { s.env with owner := ops } } := by
  rw [← dropOwner_eq h, step, stepWith, h]

/-- Settles O60: the operation's own clause of `ownerStep`. -/
theorem stepIsATransitionOrThePulse : Obligations.StepIsATransitionOrThePulse := by
  refine fun s ops => ⟨step_noOperation, step_operation, fun h hb => ?_⟩
  have hin : ({ s with env := { s.env with owner := ops } } : State).inPoll = false := hb
  rw [step_operation h, ownerStep, hin]
  rfl

/-- Settles O43: a read is the operation done and no more; the ports are the registers. -/
theorem readsChangeNothing : Obligations.ReadsChangeNothing := by
  intro s p ops h
  exact ⟨step_operation h, rfl⟩

/-- Settles O45: whether a poll is in progress does not depend on the operations still to come. -/
theorem installHookOnlyBetweenPolls : Obligations.InstallHookOnlyBetweenPolls := by
  intro s h ops howner
  rw [step_operation howner, ownerStep]
  constructor
  · intro hb
    have hin : ({ s with env := { s.env with owner := ops } } : State).inPoll = false := hb
    rw [hin]
    rfl
  · intro hb
    exact if_pos (Bool.of_not_eq_false hb)

/-- Settles O48: inside a poll both forms leave the state with the operation done. -/
theorem pollWhileBusyIsIgnored : Obligations.PollWhileBusyIsIgnored := by
  intro s op ops howner hop hb
  have hin : ({ s with env := { s.env with owner := ops } } : State).inPoll = true := Bool.of_not_eq_false hb
  rw [step_operation howner]
  rcases hop with rfl | rfl
  · exact if_pos hin
  · rw [ownerStep, hin]
    rfl

/-! ## Reset -/

/-- The state after reset is made of the reset values and the environment alone. -/
theorem step_reset {s : State} {ops : List OwnerOp} (h : s.env.owner = .reset :: ops) :
    step s = .next { State.reset with env := { s.env with owner := ops } } :=
  step_operation h

/-- Settles O46: the state after reset names no part of the state before it but the environment. -/
theorem resetKeepsNothing : Obligations.ResetKeepsNothing := by
  intro s s' ops h henv
  have h' : s'.env.owner = .reset :: ops := by rw [henv, h]
  rw [step_reset h, step_reset h', henv]
  exact ⟨rfl, _, rfl, rfl, rfl, rfl, rfl, rfl, rfl, rfl⟩

/-- Settles O47: the same state, read field by field. -/
theorem resetAbandonsThePacketInProgress : Obligations.ResetAbandonsThePacketInProgress := by
  intro s ops h
  exact ⟨_, step_reset h, rfl, rfl, rfl, rfl, rfl, rfl, rfl, rfl⟩

/-! ## The values the owner reads -/

/-- The signed reading of the bits: their value, or their value less 2^N; within the signed range. -/
theorem asSigned_cases {n : Nat} (v : BitVec (n + 1)) :
    (asSigned v = v.toNat ∨ asSigned v = v.toNat - 2 ^ (n + 1)) ∧ -2 ^ n ≤ asSigned v ∧ asSigned v ≤ 2 ^ n - 1 := by
  have hlt := v.isLt
  have hmsb := BitVec.msb_eq_decide v
  have hpow : (2 : Int) ^ n = (2 ^ n : Nat) := by simp
  rw [Nat.add_sub_cancel] at hmsb
  rw [Nat.pow_succ] at hlt
  rw [asSigned, hmsb, pow_succ, hpow]
  by_cases h : 2 ^ n ≤ v.toNat
  · rw [if_pos (decide_eq_true h)]
    exact ⟨.inr rfl, by omega, by omega⟩
  · rw [if_neg (by simpa using h)]
    exact ⟨.inl rfl, by omega, by omega⟩

/-- Settles O44: the signed reading at widths 8, 16 and 32; the unsigned one is the bits. -/
theorem ownerReadsTheValueOfTheBits : Obligations.OwnerReadsTheValueOfTheBits := by
  intro r
  obtain ⟨h8, lo8, hi8⟩ := asSigned_cases (n := 7) r.regI8
  obtain ⟨h16, lo16, hi16⟩ := asSigned_cases (n := 15) r.regI16
  obtain ⟨h32, lo32, hi32⟩ := asSigned_cases (n := 31) r.regI32
  exact ⟨⟨lo8, hi8, h8⟩, ⟨lo16, hi16, h16⟩, ⟨lo32, hi32, h32⟩, rfl, rfl⟩

end Sys2Proof.Machine
end

section
/-!
The sequencer's transitions, row by row (40_framing.md R89): what each reads, appends and decides.
-/

namespace Sys2Proof.Machine

/-! ## The rows before the dispatch -/

/-- The selector's row: no frame, a foreign selector, or on to the header. -/
theorem tick_selector_row {s t : State} (hseq : s.transient.seq = .idle) (hbusy : s.transient.busy = true)
    (ht : tick .device s = .next t) :
    t.retained = s.retained ∧
      ((t.transient.seq = .idle ∧ t.trace = s.trace ++ [Event.recv 1 .fail]) ∨
       (∃ b, b ≠ 0x01#8 ∧ t.transient.fSel = b ∧ t.transient.seq = .idle ∧ t.trace = s.trace ++ [Event.recv 1 (.ok [b])]) ∨
       (t.transient.fSel = 0x01#8 ∧ t.transient.seq = .headerRead ∧ t.trace = s.trace ++ [Event.recv 1 (.ok [0x01#8])])) := by
  rcases tick_selector_cases hbusy hseq with ⟨rest, -, hn⟩ | ⟨sel, rest, hs, -, hn⟩ | ⟨rest, -, hn⟩ | ⟨-, hn⟩ <;>
    cases hn.symm.trans ht
  · exact ⟨rfl, .inr (.inr ⟨rfl, rfl, rfl⟩)⟩
  · exact ⟨rfl, .inr (.inl ⟨sel, hs, rfl, rfl, rfl⟩)⟩
  · exact ⟨rfl, .inl ⟨rfl, rfl⟩⟩

theorem tick_header_row {s t : State} (hseq : s.transient.seq = .headerRead) (ht : tick .device s = .next t) :
    t.retained = s.retained ∧
      ((t.transient.seq = .idle ∧ t.trace = s.trace ++ [Event.recv 2 .fail, .err 0x00#8]) ∨
       (t.transient.seq = .payloadRead ∧ t.transient.idx = 0 ∧
        t.trace = s.trace ++ [Event.recv 2 (.ok [t.transient.fType, t.transient.fLen])])) := by
  rw [tick_header hseq] at ht
  rcases readHeader_cases (cfg := .device) (by decide) s with
      ⟨ty, l, rest, -, hr⟩ | ⟨pre, rest, -, -, hr⟩ | ⟨pre, -, -, hr⟩ <;>
    rw [hr] at ht <;> cases ht
  · exact ⟨rfl, .inr ⟨rfl, rfl, rfl⟩⟩
  · exact ⟨rfl, .inl ⟨rfl, by rw [raiseDeviceError_trace, afterRecv_trace, List.append_assoc]; rfl⟩⟩

theorem tick_payload_row {s t : State} (hseq : s.transient.seq = .payloadRead) (ht : tick .device s = .next t) :
    t.retained = s.retained ∧
      ((s.transient.fLen = 0 ∧ t.transient.seq = .checksumRead ∧ t.transient.stage = [] ∧ t.trace = s.trace) ∨
       (s.transient.fLen ≠ 0 ∧ t.transient.seq = .idle ∧
        t.trace = s.trace ++ [Event.recv s.transient.fLen.toNat .fail, .err s.transient.fType]) ∨
       (s.transient.fLen ≠ 0 ∧ t.transient.seq = .checksumRead ∧ t.transient.stage.length = s.transient.fLen.toNat ∧
        t.transient.idx.toNat = s.transient.fLen.toNat ∧
        t.trace = s.trace ++ [Event.recv s.transient.fLen.toNat (.ok t.transient.stage)])) := by
  rw [tick_payload hseq] at ht
  rcases readPayload_cases (cfg := .device) s with ⟨p, rest, hp, -, hr⟩ | ⟨pre, rest, hpre, -, hr⟩ | ⟨pre, -, -, hr⟩ <;>
    rw [hr] at ht <;> cases ht
  · by_cases h0 : s.transient.fLen = 0
    · obtain rfl : p = [] := by simpa [h0] using hp
      exact ⟨rfl, .inl ⟨h0, rfl, rfl, List.append_nil _⟩⟩
    · have hne : p ≠ [] := by
        rintro rfl
        exact h0 (BitVec.eq_of_toNat_eq hp.symm)
      have hidx : (BitVec.ofNat 9 p.length).toNat = s.transient.fLen.toNat := by
        have := length_le_of_toNat hp
        rw [BitVec.toNat_ofNat]
        omega
      refine ⟨rfl, .inr (.inr ⟨h0, rfl, hp, hidx, ?_⟩)⟩
      change s.trace ++ payloadEvents p = s.trace ++ [Event.recv s.transient.fLen.toNat (.ok p)]
      rw [payloadEvents, if_neg hne, hp]
  · have h0 : s.transient.fLen ≠ 0 := by
      intro h0
      simp [h0] at hpre
    exact ⟨rfl, .inr (.inl ⟨h0, rfl, by rw [raiseDeviceError_trace, afterRecv_trace, List.append_assoc]; rfl⟩)⟩

/-- Settles O54: each state's row. -/
theorem sequencerReadsInOrder : Obligations.SequencerReadsInOrder := by
  intro s t ht
  refine ⟨fun hseq hbusy => ?_, fun hseq hbusy => tick_selector_row hseq hbusy ht, fun hseq => tick_header_row hseq ht,
    fun hseq => tick_payload_row hseq ht⟩
  rw [tick_idle hbusy hseq] at ht
  cases ht
  rfl

/-! ## The dispatch -/

/-- `t` is in DispatchedAccepted, `evs` after `s`: HANDLED is set, and LAST_CMD is the tag that `s` holds. -/
def AcceptedAfter (evs : List Event) (s t : State) : Prop :=
  t.transient.seq = .dispatchedAccepted ∧ t.transient.handled = true ∧ t.retained.lastCmd = s.transient.fType ∧
    t.trace = s.trace ++ evs

/-- `t` is in DispatchedRejected, `evs` after `s`: HANDLED is not set, and the retained state is as it was. -/
def RejectedAfter (evs : List Event) (s t : State) : Prop :=
  t.transient.seq = .dispatchedRejected ∧ t.transient.handled = false ∧ t.retained = s.retained ∧
    t.trace = s.trace ++ evs

/-- `t` waits in ChecksumRead for the hook, `evs` after `s`, which it asks for the tag that `s` holds. -/
def AskingAfter (evs : List Event) (s t : State) : Prop :=
  t.transient.seq = .checksumRead ∧ t.transient.hookReq = true ∧ t.retained = s.retained ∧ t.trace = s.trace ++ evs ∧
    waitsFor t = .hook s.transient.fType

/-- The mux's two ways out: the packet's commit, or the error with its tag. -/
theorem dispatchMux_after (k : Bool) {e : ErrorKind} {s : State}
    (he : errorTag .device e s.transient.fType = s.transient.fType) :
    AcceptedAfter [] s (dispatchMux .device k e s) ∨
      RejectedAfter [.err s.transient.fType] s (dispatchMux .device k e s) := by
  rcases dispatchMux_cases k e s with ⟨-, hrejects⟩ | ⟨-, haccepts⟩
  · rw [hrejects]
    exact .inr ⟨rfl, rfl, rfl, by rw [rejectNow_trace, he]⟩
  · rw [haccepts]
    exact .inl ⟨rfl, rfl, acceptedEffect_lastCmd .., (List.append_nil _).symm⟩

theorem dispatchMux_kept (k : Bool) (e : ErrorKind) (s : State) :
    (dispatchMux .device k e s).env = s.env ∧ (dispatchMux .device k e s).transient.hookReq = s.transient.hookReq ∧
      (dispatchMux .device k e s).transient.fChk = s.transient.fChk := by
  rcases dispatchMux_cases k e s with ⟨-, h⟩ | ⟨-, h⟩ <;> rw [h] <;> exact ⟨rfl, rfl, rfl⟩

/-- The decision once the whole frame is in, in ChecksumRead. -/
theorem decideFrame_after {s : State} (hseq : s.transient.seq = .checksumRead) :
    AcceptedAfter [] s (decideFrame .device s) ∨ RejectedAfter [.err s.transient.fType] s (decideFrame .device s) ∨
      AskingAfter [] s (decideFrame .device s) := by
  rcases decideFrame_cases s with ⟨-, h⟩ | ⟨-, -, h⟩ | ⟨-, -, -, h⟩ | ⟨-, -, -, h⟩ <;> rw [h]
  · exact .inr (.inl ⟨rfl, rfl, rfl, rfl⟩)
  · exact (dispatchMux_after false (e := .len) rfl).imp_right .inl
  · exact .inr (.inl ⟨rfl, rfl, rfl, rfl⟩)
  · exact .inr (.inr ⟨hseq, rfl, rfl, (List.append_nil _).symm, by simp [waitsFor, hseq]⟩)

theorem decideFrame_fChk (s : State) : (decideFrame .device s).transient.fChk = s.transient.fChk := by
  rcases decideFrame_cases s with ⟨-, h⟩ | ⟨-, -, h⟩ | ⟨-, -, -, h⟩ | ⟨-, -, -, h⟩ <;> rw [h]
  case inr.inl => exact (dispatchMux_kept ..).2.2
  all_goals rfl

section
variable {s s1 t : State} {more : List Event} (evs : List Event)

/-- What comes after `more` from `s1` comes after `evs` and `more` from `s`, if `s1` is `s` after `evs`, its tag and its
retained state being those of `s`. -/
theorem AcceptedAfter.prepend (h : AcceptedAfter more s1 t) (htag : s1.transient.fType = s.transient.fType)
    (htr : s1.trace = s.trace ++ evs) : AcceptedAfter (evs ++ more) s t := by
  obtain ⟨hseq, hh, hlast, ht⟩ := h
  exact ⟨hseq, hh, hlast.trans htag, by rw [ht, htr, List.append_assoc]⟩

theorem RejectedAfter.prepend (h : RejectedAfter more s1 t) (hr : s1.retained = s.retained)
    (htr : s1.trace = s.trace ++ evs) : RejectedAfter (evs ++ more) s t := by
  obtain ⟨hseq, hh, hkept, ht⟩ := h
  exact ⟨hseq, hh, hkept.trans hr, by rw [ht, htr, List.append_assoc]⟩

theorem AskingAfter.prepend (h : AskingAfter more s1 t) (htag : s1.transient.fType = s.transient.fType)
    (hr : s1.retained = s.retained) (htr : s1.trace = s.trace ++ evs) : AskingAfter (evs ++ more) s t := by
  obtain ⟨hseq, hq, hkept, ht, hwaits⟩ := h
  exact ⟨hseq, hq, hkept.trans hr, by rw [ht, htr, List.append_assoc], hwaits.trans (by rw [htag])⟩

end

/-- The row of the checksum byte. -/
theorem tick_checksum_row {s t : State} (hseq : s.transient.seq = .checksumRead) (hq : s.transient.hookReq = false)
    (ht : tick .device s = .next t) :
    (t.retained = s.retained ∧ t.transient.seq = .idle ∧
      t.trace = s.trace ++ [Event.recv 1 .fail, .err s.transient.fType]) ∨
    ∃ c, t.transient.fChk = c ∧
      (AcceptedAfter [.recv 1 (.ok [c])] s t ∨ RejectedAfter [.recv 1 (.ok [c]), .err s.transient.fType] s t ∨
        AskingAfter [.recv 1 (.ok [c])] s t) := by
  rw [tick_checksum hseq hq] at ht
  rcases readChecksum_cases (cfg := .device) s with ⟨c, rest, -, hr⟩ | ⟨rest, -, hr⟩ | ⟨-, hr⟩ <;>
    rw [hr] at ht <;> cases ht
  · refine .inr ⟨c, decideFrame_fChk _, ?_⟩
    rcases decideFrame_after (s := latchFlags .device (afterChecksum c rest s)) hseq with h | h | h
    · exact .inl (h.prepend [.recv 1 (.ok [c])] rfl rfl)
    · exact .inr (.inl (h.prepend [.recv 1 (.ok [c])] rfl rfl))
    · exact .inr (.inr (h.prepend [.recv 1 (.ok [c])] rfl rfl rfl))
  · exact .inl ⟨rfl, rfl, by rw [raiseDeviceError_trace, afterRecv_trace, List.append_assoc]; rfl⟩

/-- Where the invariant lets the hook be asked, its answer alone is we_last. -/
theorem Inv.asked_weLast {s : State} (h : Inv .device s) (hq : s.transient.hookReq = true) (b : Bool) :
    (writeEnables .device s.transient.crcOk s.transient.fType s.transient.fLen b).weLast = b := by
  obtain ⟨hseq, hok, hn, -⟩ := h.asked hq
  rw [← lenByte_of_length (h.staged hseq), writeEnables_weLast h.stage, hok, hn]
  rfl

/-- There the mux accepts exactly when the hook answered true, and then writes LAST_CMD alone. -/
theorem Inv.asked_dispatchMux {s : State} (h : Inv .device s) (hq : s.transient.hookReq = true) (b : Bool)
    (rest : List HookEvent) :
    ((dispatchMux .device b .unk (hookAnswered s.transient.fType b rest s)).transient.seq = .dispatchedAccepted ↔ b = true) ∧
    (b = true → (dispatchMux .device b .unk (hookAnswered s.transient.fType b rest s)).retained =
      { s.retained with lastCmd := s.transient.fType }) := by
  obtain ⟨-, -, hn, -⟩ := h.asked hq
  have hlast := h.asked_weLast hq b
  rcases dispatchMux_cases b .unk (hookAnswered s.transient.fType b rest s) with ⟨hoff, hd⟩ | ⟨hon, hd⟩ <;> rw [hd]
  · obtain rfl : b = false := hlast.symm.trans hoff
    exact ⟨⟨nofun, nofun⟩, nofun⟩
  · obtain rfl : b = true := hlast.symm.trans hon
    exact ⟨⟨fun _ => rfl, fun _ => rfl⟩, fun _ => acceptedEffect_of_not_native hn⟩

/-- The row of the hook's answer. -/
theorem tick_hook_row {s t : State} (hseq : s.transient.seq = .checksumRead) (hq : s.transient.hookReq = true)
    (ht : tick .device s = .next t) :
    ∃ (ports : List Port) (b : Bool) (rest : List HookEvent),
      s.env.hookIn = ports.map HookEvent.reads ++ .answers b :: rest ∧ t.env = { s.env with hookIn := rest } ∧
      t.transient.hookReq = false ∧
      (AcceptedAfter [.hook s.transient.fType b] s t ∨
        RejectedAfter [.hook s.transient.fType b, .err s.transient.fType] s t) ∧
      (Inv .device s → (t.transient.seq = .dispatchedAccepted ↔ b = true) ∧
        (b = true → t.retained = { s.retained with lastCmd := s.transient.fType })) := by
  rw [tick_hook hseq hq] at ht
  rcases awaitHook_cases s with ⟨ports, b, rest, hin, ha⟩ | ⟨ports, r, rest, -, ha⟩ | ⟨ports, -, ha⟩ <;>
    cases ha.symm.trans ht
  obtain ⟨henv, hreq, -⟩ := dispatchMux_kept b .unk (hookAnswered s.transient.fType b rest s)
  refine ⟨ports, b, rest, hin, henv, hreq, ?_, fun h => h.asked_dispatchMux hq b rest⟩
  rcases dispatchMux_after b (e := .unk) (s := hookAnswered s.transient.fType b rest s) rfl with h | h
  · exact .inl (h.prepend [.hook s.transient.fType b] rfl rfl)
  · exact .inr (h.prepend [.hook s.transient.fType b] rfl rfl)

/-- Settles O55: the rows of the checksum byte, of the hook's answer and of the two ways out. -/
theorem sequencerDispatches : Obligations.SequencerDispatches := by
  intro s t ht
  refine ⟨fun hseq hq => tick_checksum_row hseq hq ht, fun hseq hq => tick_hook_row hseq hq ht, fun hseq => ?_,
    fun hseq => ?_⟩
  · rw [tick_accepted hseq] at ht
    cases ht
    exact ⟨rfl, rfl, rfl⟩
  · rw [tick_rejected hseq] at ht
    cases ht
    exact ⟨rfl, rfl, rfl⟩

end Sys2Proof.Machine
end

section
/-!
The sequencer and the atomic poll describe the same behaviour (40_framing.md R91): read by read, then the dispatch.
-/

namespace Sys2Proof.Machine

theorem sameResult_refl (o : StepResult) : sameResult o o := by
  cases o with
  | next s => exact ⟨⟨rfl, rfl, rfl⟩, rfl, rfl⟩
  | fault f => rfl
  | refused r => rfl

/-- What the poll makes of what it fetched. -/
def pollFetched (cfg : Config) : Fetched → StepResult
  | .unanswered => .fault .transportUnanswered
  | .ended _ s => .next s
  | .command i s => execWith cfg i s

theorem poll_eq_pollFetched (s : State) : poll .device s = pollFetched .device (fetch .device (startPoll s)) := rfl

/-! ## One read -/

/-- A transition that is a read does what the poll's read does, if what follows the one does what follows the other. -/
theorem refines_read {n : Nat} {s : State} {r : ReadStep} {k : State → State} {next : State → Fetched}
    (hin : s.inPoll = true) (htick : tick .device s = readTransition r k) (hended : ∀ o u, r = .ended o u → betweenPolls u)
    (hnext : ∀ u, r = .proceed u → sameResult (tickUntilIdle .device n (k u)) (pollFetched .device (next u))) :
    sameResult (tickUntilIdle .device (n + 1) s) (pollFetched .device (afterRead r next)) := by
  cases r with
  | unanswered =>
    rw [tickUntilIdle_fault hin htick]
    rfl
  | ended o u =>
    rw [tickUntilIdle_next hin htick, tickUntilIdle_done (hended o u rfl)]
    exact sameResult_refl _
  | proceed u =>
    rw [tickUntilIdle_next hin htick]
    exact hnext u rfl

/-! ## The dispatch -/

theorem tickUntilIdle_rejectNow (n : Nat) (e : ErrorKind) (s : State) :
    tickUntilIdle .device (n + 1) (rejectNow .device e s) = .next (endPoll (rejectNow .device e s)) := by
  rw [tickUntilIdle_next (inPoll_of_seq Seq.noConfusion) (tick_rejected rfl), tickUntilIdle_done rfl]

theorem tickUntilIdle_afterMux (n : Nat) (s : State) :
    tickUntilIdle .device (n + 1) (afterMux s) = .next (endPoll (sendAck .device (afterMux s))) := by
  rw [tickUntilIdle_next (inPoll_of_seq Seq.noConfusion) (tick_accepted rfl), tickUntilIdle_done rfl]

/-- Both levels reject the packet latched in `s`: the same error and nothing else. -/
theorem refines_reject {s u : State} {e : ErrorKind} {t : Byte} (n : Nat) (hr : s.retained = u.retained)
    (htr : s.trace = u.trace) (he : s.env = u.env) (ht : s.transient.fType = t) :
    sameResult (tickUntilIdle .device (n + 1) (rejectNow .device e s)) (.next (raiseDeviceError .device e t u)) := by
  rw [tickUntilIdle_rejectNow]
  exact ⟨⟨hr, by simp [htr, ht], he⟩, rfl, rfl⟩

/-- Both levels accept the packet latched in `s`: the same change and the ACK. -/
theorem refines_accept {s u : State} {t : Byte} {f : Retained → Retained} (n : Nat)
    (hr : acceptedEffect s.transient.fType s.transient.stage s.retained = writeLastCmd t (f u.retained))
    (htr : s.trace = u.trace) (he : s.env = u.env) :
    sameResult (tickUntilIdle .device (n + 1) (afterMux s)) (.next (accept .device t f u)) := by
  rw [tickUntilIdle_afterMux]
  exact ⟨⟨hr, congrArg (· ++ _) htr, he⟩, rfl, rfl⟩

theorem dispatchMux_off {k : Bool} {e : ErrorKind} {s : State}
    (h : (writeEnables .device s.transient.crcOk s.transient.fType s.transient.fLen k).weLast = false) :
    dispatchMux .device k e s = rejectNow .device e s :=
  (dispatchMux_cases k e s).elim And.right fun hon => nomatch h.symm.trans hon.1

theorem dispatchMux_on {k : Bool} {e : ErrorKind} {s : State}
    (h : (writeEnables .device s.transient.crcOk s.transient.fType s.transient.fLen k).weLast = true) :
    dispatchMux .device k e s = afterMux s :=
  (dispatchMux_cases k e s).elim (fun hoff => nomatch h.symm.trans hoff.1) And.right

section
variable {t c : Byte} {p : List Byte} {rest : List RxEvent} {s : State}

/-- The state at the decision: a whole frame received and its flags latched. -/
def latchedFrame (t : Byte) (p : List Byte) (c : Byte) (rest : List RxEvent) (s : State) : State :=
  latchFlags .device (afterFrame t p c rest s)

@[simp] theorem latchedFrame_crcOk :
    (latchedFrame t p c rest s).transient.crcOk = (rightChecksum t p == c) := rfl
@[simp] theorem latchedFrame_fType : (latchedFrame t p c rest s).transient.fType = t := rfl
@[simp] theorem latchedFrame_retained : (latchedFrame t p c rest s).retained = s.retained := rfl

/-- we_last at the decision, the checksum having passed. -/
theorem latchedFrame_weLast (hp : p.length ≤ 255) (hc : c = rightChecksum t p) (k : Bool) :
    (writeEnables .device (latchedFrame t p c rest s).transient.crcOk t (lenByte p) k).weLast =
      if Config.device.isNative t then decide (∀ w, requiredLen t = some w → p.length = w) else k := by
  rw [writeEnables_weLast hp, latchedFrame_crcOk, beq_iff_eq.mpr hc.symm, Bool.true_and]

/-- A native tag goes to the mux. -/
theorem decideFrame_native (hc : c = rightChecksum t p) (hn : Config.device.isNative t = true) :
    decideFrame .device (latchedFrame t p c rest s) = dispatchMux .device false .len (latchedFrame t p c rest s) := by
  simp [decideFrame, hc, hn]

/-- Where the sequencer waits for the hook: hook_req is raised, and nothing else differs. -/
def askingFrame (t : Byte) (p : List Byte) (c : Byte) (rest : List RxEvent) (s : State) : State :=
  { latchedFrame t p c rest s with transient := { (latchedFrame t p c rest s).transient with hookReq := true } }

/-- With a hook installed, the decision for a tag of its own is the wait, and the next transition is the hook's run. -/
theorem decideFrame_asks (hc : c = rightChecksum t p) (hn : Config.device.isNative t = false) {h : HookId}
    (hh : (afterFrame t p c rest s).retained.hook = some h) :
    decideFrame .device (latchedFrame t p c rest s) = askingFrame t p c rest s ∧
    (askingFrame t p c rest s).inPoll = true ∧
    tick .device (askingFrame t p c rest s) = awaitHook .device (askingFrame t p c rest s) :=
  have hne : s.retained.hook ≠ none := fun hnone => nomatch hnone.symm.trans hh
  ⟨by simp [decideFrame, hc, hn, hne, askingFrame], inPoll_of_seq Seq.noConfusion, tick_hook rfl rfl⟩

/-- The hook having answered, the mux does what the answer decides. -/
theorem refines_answer (hp : p.length ≤ 255) (hc : c = rightChecksum t p) (hn : Config.device.isNative t = false)
    {s1 : State} (h1 : FlagsOnly (afterFrame t p c rest s) s1) (b : Bool) (left : List HookEvent) :
    sameResult
      (tickUntilIdle .device 1 (dispatchMux .device b .unk (hookAnswered t b left (askingFrame t p c rest s))))
      (.next (finishHook .device t b (hookAnswered t b left s1))) := by
  have hlast := latchedFrame_weLast (rest := rest) (s := s) hp hc b
  rw [hn] at hlast
  have htr : (hookAnswered t b left (afterFrame t p c rest s)).trace = (hookAnswered t b left s1).trace := by
    rw [hookAnswered_trace, hookAnswered_trace, h1.trace]
  have he : (hookAnswered t b left (afterFrame t p c rest s)).env = (hookAnswered t b left s1).env := by
    rw [hookAnswered_env, hookAnswered_env, h1.env]
  cases b with
  | false =>
    rw [dispatchMux_off (s := hookAnswered t false left (askingFrame t p c rest s)) hlast]
    exact refines_reject 0 h1.retained.symm htr he rfl
  | true =>
    rw [dispatchMux_on (s := hookAnswered t true left (askingFrame t p c rest s)) hlast]
    have hr : (askingFrame t p c rest s).retained = s1.retained := h1.retained.symm
    exact refines_accept 0 ((acceptedEffect_of_not_native hn).trans (congrArg (writeLastCmd t) hr)) htr he

/-- From the decision on, at most two transitions do what the instruction's execution does. -/
theorem refines_dispatch (hp : p.length ≤ 255) :
    sameResult (tickUntilIdle .device 2 (decideFrame .device (latchedFrame t p c rest s)))
      (exec (frameInstr .device t p c) (afterFrame t p c rest s)) := by
  have hcase := exec_frame_cases t p c (afterFrame t p c rest s)
  generalize exec (frameInstr .device t p c) (afterFrame t p c rest s) = o at hcase
  cases hcase with
  | crc s1 h1 hc =>
    have hd : decideFrame .device (latchedFrame t p c rest s) = rejectNow .device .crc (latchedFrame t p c rest s) := by
      simp [decideFrame, Ne.symm hc]
    rw [hd]
    exact refines_reject 1 h1.retained.symm h1.trace.symm h1.env.symm rfl
  | stored s1 h1 f hc hn hl hf =>
    have hlast := latchedFrame_weLast (rest := rest) (s := s) hp hc false
    rw [hn, if_pos rfl, decide_eq_true hl] at hlast
    rw [decideFrame_native hc hn, dispatchMux_on hlast]
    exact refines_accept 1 (by rw [hf, h1.retained]; rfl) h1.trace.symm h1.env.symm
  | length s1 h1 hc hn w hw hl =>
    have hlast := latchedFrame_weLast (rest := rest) (s := s) hp hc false
    rw [hn, if_pos rfl, decide_eq_false fun hall => hl (hall w hw)] at hlast
    rw [decideFrame_native hc hn, dispatchMux_off hlast]
    exact refines_reject 1 h1.retained.symm h1.trace.symm h1.env.symm rfl
  | noHook s1 h1 hc hn hh =>
    have hnone : s.retained.hook = none := hh
    have hd : decideFrame .device (latchedFrame t p c rest s) = rejectNow .device .unk (latchedFrame t p c rest s) := by
      simp [decideFrame, hc, hn, hnone]
    rw [hd]
    exact refines_reject 1 h1.retained.symm h1.trace.symm h1.env.symm rfl
  | asked s1 h1 hc hn h hh ports b left hi =>
    obtain ⟨hd, hin, ht⟩ := decideFrame_asks (rest := rest) hc hn hh
    have hrun : runHook (askingFrame t p c rest s).env.hookIn = .answered b left := hi ▸ runHook_answers ports b left
    rw [awaitHook, hrun] at ht
    rw [hd, tickUntilIdle_next hin ht]
    exact refines_answer hp hc hn h1 b left
  | silent hc hn h hh ports hi =>
    obtain ⟨hd, hin, ht⟩ := decideFrame_asks (rest := rest) hc hn hh
    have hrun : runHook (askingFrame t p c rest s).env.hookIn = .unanswered := hi ▸ runHook_silent ports
    rw [awaitHook, hrun] at ht
    rw [hd, tickUntilIdle_fault hin ht]
    rfl
  | reentry hc hn h hh ports r left hi =>
    obtain ⟨hd, hin, ht⟩ := decideFrame_asks (rest := rest) hc hn hh
    have hrun : runHook (askingFrame t p c rest s).env.hookIn = .reentered r := hi ▸ runHook_reenters ports r left
    rw [awaitHook, hrun] at ht
    rw [hd, tickUntilIdle_refused hin ht]
    rfl

end

/-! ## The poll -/

/-- From ChecksumRead, the payload staged. -/
theorem refines_checksum {t : Byte} {p : List Byte} {rest0 rest1 : List RxEvent} {s : State} (hp : p.length ≤ 255)
    (hq : s.transient.hookReq = false) :
    sameResult (tickUntilIdle .device 3 (afterPayload .device p rest0 (afterHead t (lenByte p) rest1 s)))
      (pollFetched .device (afterRead (readChecksum .device (afterPayload .device p rest0 (afterHead t (lenByte p) rest1 s)))
        fun u => .command (frameInstr .device u.transient.fType u.transient.stage u.transient.fChk) u)) := by
  have hread := readChecksum_cases (cfg := .device) (afterPayload .device p rest0 (afterHead t (lenByte p) rest1 s))
  refine refines_read (inPoll_of_seq Seq.noConfusion) (tick_checksum rfl hq) (fun o u hr => ?_) fun u hr => ?_
  · rcases hread with ⟨_, _, -, h⟩ | ⟨_, -, h⟩ | ⟨-, h⟩ <;> cases h.symm.trans hr
    rfl
  · rcases hread with ⟨c, rest, -, h⟩ | ⟨_, -, h⟩ | ⟨-, h⟩ <;> cases h.symm.trans hr
    rw [afterChecksum_afterPayload, pollFetched, execWith_device]
    exact refines_dispatch hp

theorem refines_payload {t l : Byte} {rest : List RxEvent} {s : State} (hq : s.transient.hookReq = false) :
    sameResult (tickUntilIdle .device 4 (afterHead t l rest s))
      (pollFetched .device (afterRead (readPayload .device (afterHead t l rest s)) fun u3 =>
        afterRead (readChecksum .device u3) fun u =>
          .command (frameInstr .device u.transient.fType u.transient.stage u.transient.fChk) u)) := by
  have hread := readPayload_cases (cfg := .device) (afterHead t l rest s)
  refine refines_read (inPoll_of_seq Seq.noConfusion) (tick_payload rfl) (fun o u hr => ?_) fun u hr => ?_
  · rcases hread with ⟨_, _, -, -, h⟩ | ⟨_, _, -, -, h⟩ | ⟨_, -, -, h⟩ <;> cases h.symm.trans hr
    rfl
  · rcases hread with ⟨p, rest', hp, -, h⟩ | ⟨_, _, -, -, h⟩ | ⟨_, -, -, h⟩ <;> cases h.symm.trans hr
    obtain rfl : lenByte p = l := lenByte_of_length hp
    exact refines_checksum (length_le_of_toNat hp) hq

theorem refines_header {rest : List RxEvent} {s : State} (hq : s.transient.hookReq = false) :
    sameResult
      (tickUntilIdle .device 5 (enterHeader (afterSelector .device Config.device.selSendVariable rest s)))
      (pollFetched .device (fetchFrame .device (afterSelector .device Config.device.selSendVariable rest s))) := by
  have hread := readHeader_cases (cfg := .device) (by decide)
    (enterHeader (afterSelector .device Config.device.selSendVariable rest s))
  refine refines_read (inPoll_of_seq Seq.noConfusion) (tick_header rfl) (fun o u hr => ?_) fun u hr => ?_
  · rcases hread with ⟨_, _, _, -, h⟩ | ⟨_, _, -, -, h⟩ | ⟨_, -, -, h⟩ <;> cases h.symm.trans hr
    rfl
  · rcases hread with ⟨t, l, rest', -, h⟩ | ⟨_, _, -, -, h⟩ | ⟨_, -, -, h⟩ <;> cases h.symm.trans hr
    rw [afterHeader_afterSelector]
    exact refines_payload hq

/-- Settles O52: the selector's read, then a foreign selector's end or the rest of the packet. -/
theorem sequencerRefinesThePoll : Obligations.SequencerRefinesThePoll := by
  intro s hs hq
  have hseq : s.transient.seq = .idle := ((betweenPolls_iff s).mp hs).2
  have hread := readSelector_cases (cfg := .device) (startPoll s)
  rw [poll_eq_pollFetched, fetch]
  refine refines_read rfl (tick_selector rfl hseq) (fun o u hr => ?_) fun u hr => ?_
  · rcases hread with ⟨_, _, -, h⟩ | ⟨_, -, h⟩ | ⟨-, h⟩ <;> cases h.symm.trans hr
    rfl
  · rcases hread with ⟨sel, rest, -, h⟩ | ⟨_, -, h⟩ | ⟨-, h⟩ <;> cases h.symm.trans hr
    rw [sendVariable_afterSelector]
    by_cases hsel : sel = Config.device.selSendVariable
    · subst hsel
      rw [if_pos (by simp), if_pos (by simp)]
      exact refines_header (s := startPoll s) hq
    · rw [if_neg (by simpa using hsel), if_neg (by simpa using hsel), tickUntilIdle_done rfl]
      exact sameResult_refl _

end Sys2Proof.Machine
end
